-- ==== Sys2Proof/Word.lean ====
section
/-! DEFINITION. The machine word and the two primitives on it that every rule uses.

A MachineWord is "a value in `[0, 2^W)`" (R8), with the width W an open parameter of the run (R6), and the rules' operations are
"exact integer operations on naturals, and results are truncated explicitly" (R9). The model therefore writes a word as a natural
number and truncates exactly where the rules do; `State.Legal` (Safety.lean) says that every stored word is below `2^W`, and every
step keeps it. DESIGN CHOICE, log 2: safe for claims that assume `State.Legal`. The type is plainly `Nat`, without a name of its
own, so that arithmetic tactics see it. -/

namespace Sys2Proof

/-- `trunc_W(v) = v mod 2^W`, the low W bits of `v` (R9). -/
def trunc (W : Nat) (v : Nat) : Nat := v % 2 ^ W

/-- `bool(c)`: the word 1 if `c` holds and 0 otherwise (R9). -/
def boolWord (c : Bool) : Nat := if c then 1 else 0

end Sys2Proof
end

