-- ==== Sys2Proof/Config.lean ====
section
/-! DEFINITION. What an implementation fixes (R6). The open parameters W, NREG, IPREG, MAP, WATCH, P and R0 are arguments of a
launch and stand in State; here stand only the values the spec lists as legal and the defaults `State.reset` takes. -/

namespace Sys2Proof

/-- The default of W (R6, D1). Reset uses it; no meaning does: they read the width from the state (log 1). -/
def Config.defaultWidth : Nat := 64

/-- The legal values of NREG (R6, R30). -/
def Config.registerCounts : List Nat := [4, 6]

/-- NREG at reset. DESIGN CHOICE, log 3: the spec gives 4 or 6 "depending on task variant"; unsafe to rest a claim on. -/
def Config.resetRegisterCount : Nat := 4

/-- A register's value at reset. DESIGN CHOICE, log 4: the spec takes the initial file from the host; unsafe to rest a claim on. -/
def Config.resetRegister : Nat := 0

end Sys2Proof
end

