-- ==== Sys2Proof/Syntax.lean ====
section
/-! DEFINITION. The instruction set: the closed set of 16 instructions (R2), one constructor for each row of
spec/opcode_table.json, in the order of the canonical codes (R84). Every instruction carries its three W-bit fields A, B and C
(R80), field B of setr and seti among them: it may hold any value and has no effect (R87), but an encoding keeps it. -/

namespace Sys2Proof

/-- An instruction after opcode resolution (R12), with its fields A (operand1), B (operand2) and C (destination). -/
inductive Instr where
  /-- `x[C] <- x[A] + x[B], low W bits` (R140). -/
  | addr (a b c : Nat)
  /-- `x[C] <- x[A] + B, low W bits` (R141). -/
  | addi (a b c : Nat)
  /-- `x[C] <- x[A] * x[B], low W bits` (R142). -/
  | mulr (a b c : Nat)
  /-- `x[C] <- x[A] * B, low W bits` (R143). -/
  | muli (a b c : Nat)
  /-- `x[C] <- x[A] & x[B]` (R150). -/
  | banr (a b c : Nat)
  /-- `x[C] <- x[A] & B` (R151). -/
  | bani (a b c : Nat)
  /-- `x[C] <- x[A] | x[B]` (R152). -/
  | borr (a b c : Nat)
  /-- `x[C] <- x[A] | B` (R153). -/
  | bori (a b c : Nat)
  /-- `x[C] <- x[A]; B is ignored` (R160). -/
  | setr (a b c : Nat)
  /-- `x[C] <- A; B is ignored` (R161). -/
  | seti (a b c : Nat)
  /-- `x[C] <- bool(x[A] > x[B])` (R170). -/
  | gtrr (a b c : Nat)
  /-- `x[C] <- bool(x[A] > B)` (R171). -/
  | gtri (a b c : Nat)
  /-- `x[C] <- bool(A > x[B])` (R172). -/
  | gtir (a b c : Nat)
  /-- `x[C] <- bool(x[A] == x[B])` (R173). -/
  | eqrr (a b c : Nat)
  /-- `x[C] <- bool(x[A] == B)` (R174). -/
  | eqri (a b c : Nat)
  /-- `x[C] <- bool(A == x[B])` (R175). -/
  | eqir (a b c : Nat)
  deriving DecidableEq, Repr

end Sys2Proof
end

