-- ==== Sys2Proof/WellFormed.lean ====
section
/-! DEFINITION. When an instruction is well formed at width W: its fields A, B and C are W-bit words (R80, R232). A register-index
field at or past NREG is well formed: it "is legal to encode" and faults only when executed (R93). -/

namespace Sys2Proof

/-- Three fields are W-bit words (R80). -/
def fieldsFit (W : Nat) (a b c : Nat) : Bool :=
  decide (a < 2 ^ W) && decide (b < 2 ^ W) && decide (c < 2 ^ W)

/-- Every field of the instruction is a W-bit word (R80). -/
def Instr.wellFormed (W : Nat) : Instr → Bool
  | .addr a b c => fieldsFit W a b c
  | .addi a b c => fieldsFit W a b c
  | .mulr a b c => fieldsFit W a b c
  | .muli a b c => fieldsFit W a b c
  | .banr a b c => fieldsFit W a b c
  | .bani a b c => fieldsFit W a b c
  | .borr a b c => fieldsFit W a b c
  | .bori a b c => fieldsFit W a b c
  | .setr a b c => fieldsFit W a b c
  | .seti a b c => fieldsFit W a b c
  | .gtrr a b c => fieldsFit W a b c
  | .gtri a b c => fieldsFit W a b c
  | .gtir a b c => fieldsFit W a b c
  | .eqrr a b c => fieldsFit W a b c
  | .eqri a b c => fieldsFit W a b c
  | .eqir a b c => fieldsFit W a b c

end Sys2Proof
end

