-- ==== Sys2Proof/Decode.lean ====
section
/-! DEFINITION. The opcodes and their canonical codes (R84), the mapping table MAP (R41, R88, R89), the instruction format T as a
tuple (R80) and as a packed word (R81), the decoder and the encoder.

The hardware has no bytes (R62, R64): a program slot is one whole instruction, so the decoder reads a slot or the number of its
packed word, never a byte stream. -/

namespace Sys2Proof

/-- The 16 opcodes, in canonical order (R84). -/
inductive Opcode where
  | addr | addi | mulr | muli | banr | bani | borr | bori | setr | seti | gtrr | gtri | gtir | eqrr | eqri | eqir
  deriving DecidableEq, Repr

/-- The opcodes in the order of their canonical codes (R84). -/
def Opcode.order : Vector Opcode 16 :=
  #v[.addr, .addi, .mulr, .muli, .banr, .bani, .borr, .bori,
     .setr, .seti, .gtrr, .gtri, .gtir, .eqrr, .eqri, .eqir]

/-- The opcode a canonical code stands for (R84). -/
def Opcode.ofCode (code : Fin 16) : Opcode := Opcode.order[code]

/-- An opcode's canonical code (R84). -/
def Opcode.code : Opcode → Fin 16
  | .addr => 0
  | .addi => 1
  | .mulr => 2
  | .muli => 3
  | .banr => 4
  | .bani => 5
  | .borr => 6
  | .bori => 7
  | .setr => 8
  | .seti => 9
  | .gtrr => 10
  | .gtri => 11
  | .gtir => 12
  | .eqrr => 13
  | .eqri => 14
  | .eqir => 15

/-- An opcode's mnemonic (R11, R84). -/
def Opcode.mnemonic : Opcode → String
  | .addr => "addr"
  | .addi => "addi"
  | .mulr => "mulr"
  | .muli => "muli"
  | .banr => "banr"
  | .bani => "bani"
  | .borr => "borr"
  | .bori => "bori"
  | .setr => "setr"
  | .seti => "seti"
  | .gtrr => "gtrr"
  | .gtri => "gtri"
  | .gtir => "gtir"
  | .eqrr => "eqrr"
  | .eqri => "eqri"
  | .eqir => "eqir"

/-- The opcode a mnemonic names "1:1"; any other name, a pseudo-instruction's too, names none (R83, R95, R96, D17). -/
def Opcode.ofMnemonic (name : String) : Option Opcode :=
  Opcode.order.toList.find? fun op => op.mnemonic == name

/-- The instruction of an opcode with the fields A, B and C (R80, R84). -/
def Opcode.instr : Opcode → Nat → Nat → Nat → Instr
  | .addr => .addr
  | .addi => .addi
  | .mulr => .mulr
  | .muli => .muli
  | .banr => .banr
  | .bani => .bani
  | .borr => .borr
  | .bori => .bori
  | .setr => .setr
  | .seti => .seti
  | .gtrr => .gtrr
  | .gtri => .gtri
  | .gtir => .gtir
  | .eqrr => .eqrr
  | .eqri => .eqri
  | .eqir => .eqir

/-- An instruction's opcode. -/
def Instr.opcode : Instr → Opcode
  | .addr .. => .addr
  | .addi .. => .addi
  | .mulr .. => .mulr
  | .muli .. => .muli
  | .banr .. => .banr
  | .bani .. => .bani
  | .borr .. => .borr
  | .bori .. => .bori
  | .setr .. => .setr
  | .seti .. => .seti
  | .gtrr .. => .gtrr
  | .gtri .. => .gtri
  | .gtir .. => .gtir
  | .eqrr .. => .eqrr
  | .eqri .. => .eqri
  | .eqir .. => .eqir

/-- Field A of an instruction (R80). -/
def Instr.fieldA : Instr → Nat
  | .addr a _ _ => a
  | .addi a _ _ => a
  | .mulr a _ _ => a
  | .muli a _ _ => a
  | .banr a _ _ => a
  | .bani a _ _ => a
  | .borr a _ _ => a
  | .bori a _ _ => a
  | .setr a _ _ => a
  | .seti a _ _ => a
  | .gtrr a _ _ => a
  | .gtri a _ _ => a
  | .gtir a _ _ => a
  | .eqrr a _ _ => a
  | .eqri a _ _ => a
  | .eqir a _ _ => a

/-- Field B of an instruction (R80). -/
def Instr.fieldB : Instr → Nat
  | .addr _ b _ => b
  | .addi _ b _ => b
  | .mulr _ b _ => b
  | .muli _ b _ => b
  | .banr _ b _ => b
  | .bani _ b _ => b
  | .borr _ b _ => b
  | .bori _ b _ => b
  | .setr _ b _ => b
  | .seti _ b _ => b
  | .gtrr _ b _ => b
  | .gtri _ b _ => b
  | .gtir _ b _ => b
  | .eqrr _ b _ => b
  | .eqri _ b _ => b
  | .eqir _ b _ => b

/-- Field C of an instruction (R80). -/
def Instr.fieldC : Instr → Nat
  | .addr _ _ c => c
  | .addi _ _ c => c
  | .mulr _ _ c => c
  | .muli _ _ c => c
  | .banr _ _ c => c
  | .bani _ _ c => c
  | .borr _ _ c => c
  | .bori _ _ c => c
  | .setr _ _ c => c
  | .seti _ _ c => c
  | .gtrr _ _ c => c
  | .gtri _ _ c => c
  | .gtir _ _ c => c
  | .eqrr _ _ c => c
  | .eqri _ _ c => c
  | .eqir _ _ c => c

/-- The operand fields of the format, by name (R10, R44). -/
inductive FieldName where
  | a | b | c
  deriving DecidableEq, Repr

/-- The configuration array MAP: entry k is the canonical code that raw id k denotes, 4 bits wide (R41). -/
abbrev Mapping := Vector (Fin 16) 16

/-- The default mapping `MAP[k] = k` (R41). -/
def Mapping.identity : Mapping := #v[0, 1, 2, 3, 4, 5, 6, 7, 8, 9, 10, 11, 12, 13, 14, 15]

/-- MAP is a permutation of 0..15 (R41, R89): every one of the 16 codes stands in one of the 16 entries. -/
def Mapping.isBijection (m : Mapping) : Bool :=
  (List.finRange 16).all fun code => m.toList.contains code

/-- `op = MAP[ID]` (R88). -/
def Mapping.opcode (m : Mapping) (id : Fin 16) : Opcode := Opcode.ofCode m[id]

/-- The raw id that denotes an opcode under MAP; there is exactly one when MAP is a bijection (R89). -/
def Mapping.idOf? (m : Mapping) (op : Opcode) : Option (Fin 16) :=
  (List.finRange 16).find? fun id => m.opcode id == op

/-- One instruction as a program slot holds it: the raw 4-bit ID and the three W-bit fields (R62, R80). -/
structure RawInstr where
  id : Fin 16
  a : Nat
  b : Nat
  c : Nat
  deriving DecidableEq, Repr

/-- The fields of a slot are W-bit words (R80). -/
def RawInstr.wellFormed (W : Nat) (r : RawInstr) : Bool :=
  fieldsFit W r.a r.b r.c

/-- The decoder: the opcode MAP gives the raw id, with the slot's fields. It cannot fail (R88, R113). -/
def decode (m : Mapping) (r : RawInstr) : Instr := (m.opcode r.id).instr r.a r.b r.c

/-- Why the decoder boundary turns something away. -/
inductive DecodeError where
  /-- A raw id outside [0,16) (R94), or a number with bits above the packed word's `4 + 3W` (log 16). Raised by `Tuple.load`
  and `unpackWord`. Safe: no run is made of it. -/
  | idOutOfRange (id : Nat)
  /-- A field that is no W-bit word (R80, R232). Raised by `Tuple.load`. Safe: no run is made of it. -/
  | fieldTooWide (field : FieldName) (value : Nat)
  deriving DecidableEq, Repr

/-- An instruction in the tuple form of the source, whose id is still a wider integer (R80, R94). -/
structure Tuple where
  id : Nat
  a : Nat
  b : Nat
  c : Nat
  deriving DecidableEq, Repr

/-- A mnemonic-form instruction is loaded with ID = the opcode's canonical code (R83). -/
def Opcode.tuple (op : Opcode) (a b c : Nat) : Tuple := ⟨op.code, a, b, c⟩

/-- The loader's checks on one tuple: ID in [0,16) (R94), every field below `2^W` (R232). -/
def Tuple.load (W : Nat) (t : Tuple) : Except DecodeError RawInstr :=
  if h : t.id < 16 then
    if t.a < 2 ^ W then
      if t.b < 2 ^ W then
        if t.c < 2 ^ W then .ok ⟨⟨t.id, h⟩, t.a, t.b, t.c⟩
        else .error (.fieldTooWide .c t.c)
      else .error (.fieldTooWide .b t.b)
    else .error (.fieldTooWide .a t.a)
  else .error (.idOutOfRange t.id)

/-- `word = ID ++ A ++ B ++ C` (R81). -/
def packWord (W : Nat) (r : RawInstr) : Nat :=
  r.id * 2 ^ (3 * W) + r.a * 2 ^ (2 * W) + r.b * 2 ^ W + r.c

/-- The fields of a packed word: ID is bits 3W+3 to 3W, A bits 3W-1 to 2W, B bits 2W-1 to W, C bits W-1 to 0 (R81). A number
with a bit above 3W+3 is no packed word. -/
def unpackWord (W : Nat) (w : Nat) : Except DecodeError RawInstr :=
  if h : w / 2 ^ (3 * W) < 16 then
    .ok ⟨⟨w / 2 ^ (3 * W), h⟩, w / 2 ^ (2 * W) % 2 ^ W, w / 2 ^ W % 2 ^ W, w % 2 ^ W⟩
  else .error (.idOutOfRange (w / 2 ^ (3 * W)))

/-- The instruction a packed word stands for under MAP (R81, R88). -/
def decodeWord (W : Nat) (m : Mapping) (w : Nat) : Except DecodeError Instr :=
  (unpackWord W w).map (decode m)

/-- The host's question about a row of spec/opcode_table.json: the table packs at W = 64 and gives the identity MAP. -/
def decodeTableWord (nbits w : Nat) : Option Instr :=
  match decodeWord Config.defaultWidth Mapping.identity (w % 2 ^ nbits) with
  | .ok i => some i
  | .error _ => none

/-- The slot an instruction is loaded as under MAP; none where no id denotes its opcode (R83, R89). -/
def encode (m : Mapping) (i : Instr) : Option RawInstr :=
  (m.idOf? i.opcode).map fun id => ⟨id, i.fieldA, i.fieldB, i.fieldC⟩

/-- The packed word of an instruction under MAP (R81). -/
def encodeWord (W : Nat) (m : Mapping) (i : Instr) : Option Nat :=
  (encode m i).map (packWord W)

end Sys2Proof
end

