-- ==== Sys2Proof/Machine/State.lean ====
section
/-! DEFINITION. The state (R30 to R48, R51), the reasons a step can stop, and the state after reset.

There is no data memory and no byte-addressed storage (R61, R64), so no list of address and byte pairs: the program memory is a
list of whole slots (R62; log 9). -/

namespace Sys2Proof.Machine

/-- Configuration register IPB: the ip-register binding (R40). -/
structure Ipb where
  /-- Bit 0: a binding exists. -/
  en : Bool
  /-- Bits 3:1: the bound register, ignored while `en` is false (log 13). -/
  idx : Fin 8
  deriving DecidableEq, Repr

/-- Configuration register WCFG: the watch-halt policy (R42). -/
structure Wcfg where
  /-- Bit 0: the watch-halt policy is active. -/
  en : Bool
  /-- Bits 3:1: the watched register, ignored while `en` is false (log 13). -/
  idx : Fin 8
  deriving DecidableEq, Repr

/-- STATUS.CODE, the run state (R43, R190). -/
inductive RunCode where
  | running | halted | watchHalt | fault
  deriving DecidableEq, Repr

/-- STATUS.CAUSE (R43). The codes 2 to 7 are never produced (U13), so they have no constructor. -/
inductive Cause where
  | none | outOfRangeRegister
  deriving DecidableEq, Repr

/-- Status register STATUS (R43). -/
structure Status where
  code : RunCode
  cause : Cause
  deriving DecidableEq, Repr

/-- Status register FINFO, the faulting instruction's record (R44). Meaningful only in FAULT (log 8). -/
structure Finfo where
  pc : Nat
  field : FieldName
  value : Nat
  deriving DecidableEq, Repr

/-- What a watch-halt suspension found: the pc and the register file the core handed to the host (R48, R212; log 12). -/
structure Suspension where
  pc : Nat
  regs : List Nat
  deriving DecidableEq, Repr

/-- Everything the spec gives the machine. -/
structure State where
  /-- W, the width of a MachineWord, fixed for a run (R6; log 1). -/
  width : Nat
  /-- The register file x[0..NREG-1] (R30); its length is NREG (R7; log 3). -/
  regs : List Nat
  /-- The instruction pointer, a natural number (R34). -/
  pc : Nat
  /-- The program memory P, one slot an instruction (R62). -/
  program : List RawInstr
  /-- The ip-register binding (R40). -/
  ipb : Ipb
  /-- The decoder's mapping table (R41). -/
  map : Mapping
  /-- The watch-halt policy (R42). -/
  wcfg : Wcfg
  /-- The run status (R43). -/
  status : Status
  /-- The fault record (R44). -/
  finfo : Finfo
  /-- The last suspension: the model's own field, by which a resume can tell "the same pc with the same register file" (R197;
  log 12). No step reads it. -/
  suspension : Option Suspension
  deriving DecidableEq, Repr

/-- Why a step answers no next state. Every one is a stuck state: "no step is enabled" (R190; log 10). -/
inductive Fault where
  /-- STATUS.CODE is HALTED: the run is over. Raised by `step`. Safe: the spec enables no step here. -/
  | halted
  /-- STATUS.CODE is FAULT: the run ended in a fault, and only a new launch leaves it (R199). Raised by `step`. Safe. -/
  | faulted
  /-- STATUS.CODE is WATCH_HALT: only the host's resume goes on (R205, R215). Raised by `step`. Safe. -/
  | suspended
  deriving DecidableEq, Repr

/-- What is turned away by name. No meaning of an instruction raises one. -/
inductive Refusal where
  /-- An arm of `exec` without a meaning. Raised by no arm of this model. Safe. -/
  | notModelled (mnemonic : String)
  /-- W is 0; its legal values are the integers from 1 (R6; log 11). Raised by `launch`. Safe: no run exists. -/
  | widthZero
  /-- NREG is neither 4 nor 6 (R232). Raised by `launch`. Safe. -/
  | registerCount (nreg : Nat)
  /-- `len(R0)` is not NREG (R232). Raised by `launch`. Safe. -/
  | registerFileLength (len nreg : Nat)
  /-- A word of R0 is not below `2^W` (R232). Raised by `launch`. Safe. -/
  | initialWordTooWide
  /-- IPB.EN = 1 and IPB.IDX is not below NREG (R40, R232). Raised by `launch`. Safe. -/
  | bindingOutOfRange (idx : Nat)
  /-- WCFG.EN = 1 and WCFG.IDX is not below NREG (R42, R232). Raised by `launch`. Safe. -/
  | watchOutOfRange (idx : Nat)
  /-- MAP is no bijection: the source's UnresolvedMapping (R89, R194, R232). Raised by `launch`. Safe. -/
  | unresolvedMapping
  /-- The instruction at this index has an ID outside [0,16) or a field that is no word (R94, R232). Raised by `launch`. Safe. -/
  | badInstruction (index : Nat) (error : DecodeError)
  /-- `len(P)` is above `2^W` (R232). Raised by `launch`. Safe. -/
  | programTooLong (len : Nat)
  /-- The host writes or resumes outside WATCH_HALT (R214, R215, R219). Raised by the host's operations. Safe. -/
  | notSuspended
  /-- The host writes a register that does not exist (R214; log 15). Raised by the host's operations. Safe. -/
  | noSuchRegister (index : Nat)
  /-- The host writes a value that is no W-bit word (R214; log 15). Raised by the host's operations. Safe. -/
  | hostWordTooWide (value : Nat)
  deriving DecidableEq, Repr

/-- The machine right after reset: a launch (R230, R231) of the empty program at the default width, with the values log 1 and
3 to 8 name where the spec takes them from the host. Its pc and STATUS are a launch's (R51, R231; log 19), its MAP is the launch
default (R41; log 7), and no suspension is noted (log 12). -/
def State.reset : State where
  width := Config.defaultWidth
  regs := List.replicate Config.resetRegisterCount Config.resetRegister
  pc := 0
  program := []
  ipb := ⟨false, 0⟩
  map := Mapping.identity
  wcfg := ⟨false, 0⟩
  status := ⟨.running, .none⟩
  finfo := ⟨0, .a, 0⟩
  suspension := none

end Sys2Proof.Machine
end

