-- ==== Sys2Proof/Machine/Alu.lean ====
section
/-! DEFINITION. The functional units: adder, multiplier, bitwise logic, comparators (R123 to R125). Each gives one result word and
nothing else: the hardware has no flags (R45), which is why this folder has no file of flag computations. -/

namespace Sys2Proof.Machine

/-- The adder: the low W bits of the exact sum (R123). -/
def adder (W : Nat) (a b : Nat) : Nat := trunc W (a + b)

/-- The multiplier: the low W bits of the exact product (R123, R125). -/
def multiplier (W : Nat) (a b : Nat) : Nat := trunc W (a * b)

/-- Bitwise AND (R150). -/
def andUnit (a b : Nat) : Nat := a &&& b

/-- Bitwise OR (R152). -/
def orUnit (a b : Nat) : Nat := a ||| b

/-- The greater-than comparator: operand A above operand B, unsigned (R124, R170). -/
def greaterThan (a b : Nat) : Nat := boolWord (decide (a > b))

/-- The equal-to comparator, on all W bits (R173). -/
def equalTo (a b : Nat) : Nat := boolWord (a == b)

end Sys2Proof.Machine
end

