-- ==== Sys2Proof/Machine/Operands.lean ====
section
/-! DEFINITION. The operand forms: the register-immediate multiplexer (R85, R90, R115, R116), the register-index fields of an
instruction, and the two tests that go over exactly those fields, the range check (R114) and the touch predicate (R211). -/

namespace Sys2Proof.Machine

/-- An operand field with the mode its opcode gives it (R11, R90). -/
inductive Operand where
  /-- Register mode: the field is a register index. -/
  | reg (field : Nat)
  /-- Immediate mode: the field is the operand. -/
  | imm (field : Nat)
  deriving DecidableEq, Repr

/-- What an instruction names: operand A, operand B unless the opcode ignores it (R87), and the destination register C (R91). -/
structure Form where
  a : Operand
  b : Option Operand
  c : Nat
  deriving DecidableEq, Repr

/-- `x[i]`. It is defined only for `i < NREG` (R9), and the range check comes before every read; past the file it answers 0,
which only a state that no launch makes can show (log 20). -/
def readReg (x : List Nat) (i : Nat) : Nat := x.getD i 0

/-- The multiplexer: `x[f]` in register mode, the field itself in immediate mode (R90, R92, R115, R116). -/
def Operand.read (x : List Nat) : Operand → Nat
  | .reg f => readReg x f
  | .imm f => f

/-- The register index an operand names, if any. -/
def Operand.registerField? : Operand → Option Nat
  | .reg f => some f
  | .imm _ => none

/-- The A-mode and B-mode columns of the opcode table (R84, R85). -/
def instrForm : Instr → Form
  | .addr a b c => ⟨.reg a, some (.reg b), c⟩
  | .addi a b c => ⟨.reg a, some (.imm b), c⟩
  | .mulr a b c => ⟨.reg a, some (.reg b), c⟩
  | .muli a b c => ⟨.reg a, some (.imm b), c⟩
  | .banr a b c => ⟨.reg a, some (.reg b), c⟩
  | .bani a b c => ⟨.reg a, some (.imm b), c⟩
  | .borr a b c => ⟨.reg a, some (.reg b), c⟩
  | .bori a b c => ⟨.reg a, some (.imm b), c⟩
  | .setr a _ c => ⟨.reg a, none, c⟩
  | .seti a _ c => ⟨.imm a, none, c⟩
  | .gtrr a b c => ⟨.reg a, some (.reg b), c⟩
  | .gtri a b c => ⟨.reg a, some (.imm b), c⟩
  | .gtir a b c => ⟨.imm a, some (.reg b), c⟩
  | .eqrr a b c => ⟨.reg a, some (.reg b), c⟩
  | .eqri a b c => ⟨.reg a, some (.imm b), c⟩
  | .eqir a b c => ⟨.imm a, some (.reg b), c⟩

/-- The register-index fields, in the order A, B, C: A and B in register mode, and C always (R114, R192). -/
def Form.registerFields (f : Form) : List (FieldName × Nat) :=
  (f.a.registerField?.map (Prod.mk .a)).toList ++
    ((f.b.bind Operand.registerField?).map (Prod.mk .b)).toList ++ [(.c, f.c)]

/-- The range check: the first register-index field that is not below NREG, with its value (R114). -/
def Form.firstOutOfRange (f : Form) (nreg : Nat) : Option (FieldName × Nat) :=
  f.registerFields.find? fun p => decide (nreg ≤ p.2)

/-- The touch predicate: one of the register-index fields is `w`. The ip mirror does not count (R211). -/
def Form.touches (f : Form) (w : Nat) : Bool :=
  f.registerFields.any fun p => p.2 == w

/-- `evaluate(op, registers, operand1, operand2)`: the result word of an instruction, a function of the width, the register file
and the instruction alone (R118). The table is the result column of R84. -/
def evaluate (W : Nat) (x : List Nat) : Instr → Nat
  | .addr a b _ => adder W (readReg x a) (readReg x b)
  | .addi a b _ => adder W (readReg x a) b
  | .mulr a b _ => multiplier W (readReg x a) (readReg x b)
  | .muli a b _ => multiplier W (readReg x a) b
  | .banr a b _ => andUnit (readReg x a) (readReg x b)
  | .bani a b _ => andUnit (readReg x a) b
  | .borr a b _ => orUnit (readReg x a) (readReg x b)
  | .bori a b _ => orUnit (readReg x a) b
  | .setr a _ _ => readReg x a
  | .seti a _ _ => a
  | .gtrr a b _ => greaterThan (readReg x a) (readReg x b)
  | .gtri a b _ => greaterThan (readReg x a) b
  | .gtir a b _ => greaterThan a (readReg x b)
  | .eqrr a b _ => equalTo (readReg x a) (readReg x b)
  | .eqri a b _ => equalTo (readReg x a) b
  | .eqir a b _ => equalTo a (readReg x b)

end Sys2Proof.Machine
end

