-- ==== Sys2Proof/Machine/Ops.lean ====
section
/-! DEFINITION. The named operations on the state: the register file, the ip mirror and the next pc, taking the exception, halting
and suspending, the common step every instruction shares (R110), and the part of a step before an instruction executes. -/

namespace Sys2Proof.Machine

/-- NREG, the register-file length (R7). -/
def State.nreg (s : State) : Nat := s.regs.length

/-- `x[i]` (R9). -/
def State.reg (s : State) (i : Nat) : Nat := readReg s.regs i

/-- `x[i] <- v` (R9). -/
def State.setReg (s : State) (i : Nat) (v : Nat) : State := { s with regs := s.regs.set i v }

/-- `pc <- t` (R9). -/
def State.setPc (s : State) (t : Nat) : State := { s with pc := t }

/-- IPREG: the bound register, if IPB.EN = 1 (R38, R40). -/
def State.binding (s : State) : Option Nat := if s.ipb.en then some s.ipb.idx else none

/-- WATCH: the watched register, if WCFG.EN = 1 (R42). -/
def State.watched (s : State) : Option Nat := if s.wcfg.en then some s.wcfg.idx else none

/-- The ip mirror: with a binding, `x[IPREG] <- pc` (R117). -/
def State.mirror (s : State) : State :=
  match s.binding with
  | some p => s.setReg p s.pc
  | none => s

/-- The next pc: `x[IPREG] + 1` on naturals with a binding (R120), `pc + 1` without (R121). -/
def State.advance (s : State) : State :=
  match s.binding with
  | some p => s.setPc (s.reg p + 1)
  | none => s.setPc (s.pc + 1)

/-- `raise E(info)`, taking the exception: STATUS becomes FAULT with E's cause, FINFO records the pc, the field and its value, and
nothing else changes; no control is transferred (R191, R192, R198). There is no return from it (R199). -/
def State.raise (s : State) (cause : Cause) (field : FieldName) (value : Nat) : State :=
  { s with status := ⟨.fault, cause⟩, finfo := ⟨s.pc, field, value⟩ }

/-- The end of the program: STATUS.CODE becomes HALTED, nothing else changes (R111). -/
def State.halt (s : State) : State := { s with status := { s.status with code := .halted } }

/-- The watch-halt: STATUS.CODE becomes WATCH_HALT, nothing else the spec names changes (R212); the model notes what the host is
handed (log 12). -/
def State.suspend (s : State) : State :=
  { s with status := { s.status with code := .watchHalt }, suspension := some ⟨s.pc, s.regs⟩ }

/-- The common step of an instruction from its range check on (R110): a failing check raises OutOfRangeRegister before any other
change (R114); otherwise the mirror (R117), the result from the register file as the mirror left it (R115, R116, R118), the
writeback (R119) and the next pc (R120, R121). -/
def State.commonStep (s : State) (f : Form) (result : List Nat → Nat) : Host.Outcome State Fault Refusal :=
  match f.firstOutOfRange s.nreg with
  | some (field, value) => .next (s.raise .outOfRangeRegister field value)
  | none => .next ((s.mirror.setReg f.c (result s.mirror.regs)).advance)

/-- The common step of an instruction with two operands and a unit that combines them. -/
def State.binaryStep (s : State) (a b : Operand) (c : Nat) (unit : Nat → Nat → Nat) : Host.Outcome State Fault Refusal :=
  s.commonStep ⟨a, some b, c⟩ fun x => unit (a.read x) (b.read x)

/-- The common step of an instruction that assigns its operand A and ignores B (R87). -/
def State.assignStep (s : State) (a : Operand) (c : Nat) : Host.Outcome State Fault Refusal :=
  s.commonStep ⟨a, none, c⟩ fun x => a.read x

/-- The watch-halt test: a watched register exists and the instruction touches it (R211, R212). -/
def State.watchFires (s : State) (i : Instr) : Bool :=
  match s.watched with
  | some w => (instrForm i).touches w
  | none => false

/-- What the tests before execution make of a step. -/
inductive Phase where
  /-- No step is enabled (R190). -/
  | stuck (f : Fault)
  /-- `pc >= len(P)` (R111). -/
  | ended
  /-- The watch-halt test fires (R212). -/
  | watched
  /-- The decoded instruction executes. -/
  | run (i : Instr)
  deriving DecidableEq, Repr

/-- The tests of a step before its range check, in the order of R110 and R197: the run status, the end of the program, then, with
the slot fetched and decoded (R112, R113), the watch-halt test. -/
def State.phase (s : State) : Phase :=
  match s.status.code with
  | .halted => .stuck .halted
  | .fault => .stuck .faulted
  | .watchHalt => .stuck .suspended
  | .running =>
    if h : s.pc < s.program.length then
      let i := decode s.map s.program[s.pc]
      if s.watchFires i then .watched else .run i
    else .ended

/-- A program with one more slot written at index `k`, padded with instructions that are never executed where it was shorter. It
stands for the host loading a program (R231), never for a step of the core. -/
def placeSlot (program : List RawInstr) (k : Nat) (r : RawInstr) : List RawInstr :=
  if k < program.length then program.set k r
  else program ++ List.replicate (k - program.length) ⟨0, 0, 0, 0⟩ ++ [r]

end Sys2Proof.Machine
end

