-- ==== Sys2Proof/Machine/Arith.lean ====
section
/-! DEFINITION. The arithmetic family (R140 to R144): add and multiply, low W bits, no overflow report (R123). Each meaning is the common step (Ops.lean) with the
instruction's operand forms and its unit. -/

namespace Sys2Proof.Machine

/-- `x[C] <- trunc_W(x[A] + x[B])` (R140). -/
def execAddr (a b c : Nat) (s : State) : Host.Outcome State Fault Refusal :=
  s.binaryStep (.reg a) (.reg b) c (adder s.width)

/-- `x[C] <- trunc_W(x[A] + B)` (R141). -/
def execAddi (a b c : Nat) (s : State) : Host.Outcome State Fault Refusal :=
  s.binaryStep (.reg a) (.imm b) c (adder s.width)

/-- `x[C] <- trunc_W(x[A] * x[B])` (R142). -/
def execMulr (a b c : Nat) (s : State) : Host.Outcome State Fault Refusal :=
  s.binaryStep (.reg a) (.reg b) c (multiplier s.width)

/-- `x[C] <- trunc_W(x[A] * B)` (R143). -/
def execMuli (a b c : Nat) (s : State) : Host.Outcome State Fault Refusal :=
  s.binaryStep (.reg a) (.imm b) c (multiplier s.width)

end Sys2Proof.Machine
end

