-- ==== Sys2Proof/Machine/Assign.lean ====
section
/-! DEFINITION. The assign family (R160, R161). Operand B is ignored entirely: neither read nor checked (R87). Each meaning is the common step (Ops.lean) with the
instruction's operand forms and its unit. -/

namespace Sys2Proof.Machine

/-- `x[C] <- x[A]` (R160). -/
def execSetr (a _b c : Nat) (s : State) : Host.Outcome State Fault Refusal :=
  s.assignStep (.reg a) c

/-- `x[C] <- A` (R161). -/
def execSeti (a _b c : Nat) (s : State) : Host.Outcome State Fault Refusal :=
  s.assignStep (.imm a) c

end Sys2Proof.Machine
end

