-- ==== Sys2Proof/Machine/Bitwise.lean ====
section
/-! DEFINITION. The bitwise-logic family (R150 to R154). Each meaning is the common step (Ops.lean) with the
instruction's operand forms and its unit. -/

namespace Sys2Proof.Machine

/-- `x[C] <- x[A] & x[B]` (R150). -/
def execBanr (a b c : Nat) (s : State) : Host.Outcome State Fault Refusal :=
  s.binaryStep (.reg a) (.reg b) c andUnit

/-- `x[C] <- x[A] & B` (R151). -/
def execBani (a b c : Nat) (s : State) : Host.Outcome State Fault Refusal :=
  s.binaryStep (.reg a) (.imm b) c andUnit

/-- `x[C] <- x[A] | x[B]` (R152). -/
def execBorr (a b c : Nat) (s : State) : Host.Outcome State Fault Refusal :=
  s.binaryStep (.reg a) (.reg b) c orUnit

/-- `x[C] <- x[A] | B` (R153). -/
def execBori (a b c : Nat) (s : State) : Host.Outcome State Fault Refusal :=
  s.binaryStep (.reg a) (.imm b) c orUnit

end Sys2Proof.Machine
end

