-- ==== Sys2Proof/Machine/Compare.lean ====
section
/-! DEFINITION. The comparison family (R170 to R176): unsigned, the result is the word 1 or 0. Each meaning is the common step (Ops.lean) with the
instruction's operand forms and its unit. -/

namespace Sys2Proof.Machine

/-- `x[C] <- bool(x[A] > x[B])` (R170). -/
def execGtrr (a b c : Nat) (s : State) : Host.Outcome State Fault Refusal :=
  s.binaryStep (.reg a) (.reg b) c greaterThan

/-- `x[C] <- bool(x[A] > B)` (R171). -/
def execGtri (a b c : Nat) (s : State) : Host.Outcome State Fault Refusal :=
  s.binaryStep (.reg a) (.imm b) c greaterThan

/-- `x[C] <- bool(A > x[B])` (R172). -/
def execGtir (a b c : Nat) (s : State) : Host.Outcome State Fault Refusal :=
  s.binaryStep (.imm a) (.reg b) c greaterThan

/-- `x[C] <- bool(x[A] == x[B])` (R173). -/
def execEqrr (a b c : Nat) (s : State) : Host.Outcome State Fault Refusal :=
  s.binaryStep (.reg a) (.reg b) c equalTo

/-- `x[C] <- bool(x[A] == B)` (R174). -/
def execEqri (a b c : Nat) (s : State) : Host.Outcome State Fault Refusal :=
  s.binaryStep (.reg a) (.imm b) c equalTo

/-- `x[C] <- bool(A == x[B])` (R175). -/
def execEqir (a b c : Nat) (s : State) : Host.Outcome State Fault Refusal :=
  s.binaryStep (.imm a) (.reg b) c equalTo

end Sys2Proof.Machine
end

