-- ==== Sys2Proof/Machine/Step.lean ====
section
/-! DEFINITION. One step of the core (R110), and the placing of an instruction where the next step fetches it. -/

namespace Sys2Proof.Machine

/-- One step (R110): stuck unless RUNNING, halted at the end of the program, suspended by the watch-halt test, or the execution of
the decoded instruction. -/
def step (s : State) : Host.Outcome State Fault Refusal :=
  match s.phase with
  | .stuck f => .fault f
  | .ended => .next s.halt
  | .watched => .next s.suspend
  | .run i => exec i s

/-- `s` with the packed word `w` in the slot the pc points at, RUNNING. It stands for the host's load of a program (log 5); a number
with bits above the packed word leaves `s` as it is (log 16). -/
def State.withFetchWord (s : State) (nbits w : Nat) : State :=
  match unpackWord s.width (w % 2 ^ nbits) with
  | .ok r => { s with program := placeSlot s.program s.pc r, status := ⟨.running, .none⟩ }
  | .error _ => s

end Sys2Proof.Machine
end

