-- ==== Sys2Proof/Machine/HostControl.lean ====
section
/-! DEFINITION. The host's side of the interface (R49, R210 to R219): what it reads, its service while the core is in WATCH_HALT, a
run bounded by fuel, and the cycle-detection protocol. None of this is a step of the core (log 15). Registers, pc and STATUS the
host reads as fields of the state. -/

namespace Sys2Proof.Machine

/-- The packed word of IPB: IDX in bits 3:1, EN in bit 0 (R40). -/
def Ipb.word (r : Ipb) : BitVec 4 := BitVec.ofNat 4 (2 * r.idx + boolWord r.en)

/-- The packed word of WCFG: IDX in bits 3:1, EN in bit 0 (R42). -/
def Wcfg.word (r : Wcfg) : BitVec 4 := BitVec.ofNat 4 (2 * r.idx + boolWord r.en)

/-- The code of STATUS.CODE: 0 RUNNING, 1 HALTED, 2 WATCH_HALT, 3 FAULT (R43). -/
def RunCode.number : RunCode → Nat
  | .running => 0
  | .halted => 1
  | .watchHalt => 2
  | .fault => 3

/-- The code of STATUS.CAUSE: 0 none, 1 OutOfRangeRegister (R43, R192). -/
def Cause.number : Cause → Nat
  | .none => 0
  | .outOfRangeRegister => 1

/-- The packed word of STATUS: CAUSE in bits 4:2, CODE in bits 1:0 (R43). -/
def Status.word (r : Status) : BitVec 5 := BitVec.ofNat 5 (4 * r.cause.number + r.code.number)

/-- The code of FINFO.FIELD: 0 = A, 1 = B, 2 = C (R44). -/
def fieldNumber : FieldName → Nat
  | .a => 0
  | .b => 1
  | .c => 2

/-- The fault record, readable in FAULT and nowhere else: outside FAULT it is unspecified and must not be read (R44, U10). -/
def State.faultRecord (s : State) : Option Finfo := if s.status.code = .fault then some s.finfo else none

/-- The result word: by the host's convention register 0 of the final file (R50, R219). -/
def State.result (s : State) : Option Nat := if s.status.code = .halted then some (s.reg 0) else none

/-- The host writes a register with a W-bit word while the core is in WATCH_HALT (R214). -/
def hostWriteReg (i : Nat) (v : Nat) (s : State) : Host.Outcome State Fault Refusal :=
  if s.status.code ≠ .watchHalt then .refused .notSuspended
  else if s.nreg ≤ i then .refused (.noSuchRegister i)
  else if 2 ^ s.width ≤ v then .refused (.hostWordTooWide v)
  else .next (s.setReg i v)

/-- The host sets the pc to any natural number while the core is in WATCH_HALT (R214). -/
def hostSetPc (t : Nat) (s : State) : Host.Outcome State Fault Refusal :=
  if s.status.code ≠ .watchHalt then .refused .notSuspended else .next (s.setPc t)

/-- The host's resume: STATUS.CODE becomes RUNNING (R215). -/
def hostResume (s : State) : Host.Outcome State Fault Refusal :=
  if s.status.code ≠ .watchHalt then .refused .notSuspended
  else .next { s with status := { s.status with code := .running } }

/-- One host operation after another, stopping where one is refused. -/
def andThen (o : Host.Outcome State Fault Refusal) (f : State → Host.Outcome State Fault Refusal) :
    Host.Outcome State Fault Refusal :=
  match o with
  | .next s => f s
  | .fault r => .fault r
  | .refused r => .refused r

/-- The fault that waits behind a suspension: the host has left the pc and the register file as the suspension handed them over, and
the instruction that was not executed has this first field out of range (R197). -/
def State.waitingFault (s : State) : Option (FieldName × Nat) :=
  if s.suspension = some ⟨s.pc, s.regs⟩ then
    s.program[s.pc]?.bind fun r => (instrForm (decode s.map r)).firstOutOfRange s.nreg
  else none

/-- The resume of R197's remark, with the step it leads to: "If the host resumes at the same pc with the same register file, the fault
is raised then". Where no fault waits it is the resume of R215 and a step (log 12). -/
def hostResumeRaising (s : State) : Host.Outcome State Fault Refusal :=
  andThen (hostResume s) fun t =>
    match t.waitingFault with
    | some (field, value) => .next (t.raise .outOfRangeRegister field value)
    | none => step t

/-- The source's resume action: `x[MISSREG] <- 0; pc <- pc + ADV; resume` (R216). -/
def resumeAction (missReg adv : Nat) (s : State) : Host.Outcome State Fault Refusal :=
  andThen (andThen (hostWriteReg missReg 0 s) fun t => hostSetPc (t.pc + adv) t) hostResume

/-- What the host has seen when it stops stepping (R132, R195). -/
inductive Verdict where
  /-- STATUS became HALTED. -/
  | halted
  /-- STATUS became FAULT: never to be read as a halt (R190). -/
  | faulted
  /-- STATUS became WATCH_HALT. -/
  | suspended
  /-- The host's fuel is spent while STATUS is still RUNNING: NonTerminatingProgram, which says nothing of the run (R195). -/
  | outOfFuel
  /-- A step from RUNNING answered no next state, which no meaning of this model does. -/
  | stuck
  deriving DecidableEq, Repr

/-- Call `step()` while STATUS.CODE = RUNNING, at most `fuel` times (R132, R195; log 18). -/
def runFuel : Nat → State → Verdict × State
  | fuel, s =>
    match s.status.code with
    | .halted => (.halted, s)
    | .fault => (.faulted, s)
    | .watchHalt => (.suspended, s)
    | .running =>
      match fuel with
      | 0 => (.outOfFuel, s)
      | fuel + 1 =>
        match step s with
        | .next t => runFuel fuel t
        | .fault _ | .refused _ => (.stuck, s)

/-- The answer of the cycle-detection protocol, from the values seen, the last newly seen one and the signal values to come: the last
newly seen value before the first repeat (R217, C3); none while no value has repeated. -/
def cycleAnswer : List Nat → Option Nat → List Nat → Option Nat
  | _, _, [] => none
  | seen, last, v :: rest => if v ∈ seen then last else cycleAnswer (v :: seen) (some v) rest

/-- The signal values the host reads: run to WATCH_HALT, read SIGREG, apply the resume action, at most `rounds` times (R217).
DESIGN CHOICE, log 21: a run that ends in HALTED or FAULT ends the list before its round, and a refused resume action ends it after the
value read; R217 does not say what the host does there. The bounds are log 18's. -/
def signals (fuel sigReg missReg adv : Nat) : Nat → State → List Nat
  | 0, _ => []
  | rounds + 1, s =>
    match runFuel fuel s with
    | (.suspended, t) =>
      match resumeAction missReg adv t with
      | .next u => t.reg sigReg :: signals fuel sigReg missReg adv rounds u
      | _ => [t.reg sigReg]
    | _ => []

/-- The cycle-detection protocol with its two bounds (R217; log 18): none where the signal values end before one repeats (DESIGN CHOICE,
log 21). -/
def watchCycle (fuel rounds sigReg missReg adv : Nat) (s : State) : Option Nat :=
  cycleAnswer [] none (signals fuel sigReg missReg adv rounds s)

end Sys2Proof.Machine
end

