-- ==== Sys2Proof/Machine/Launch.lean ====
section
/-! DEFINITION. The launch (R231) with its refusals (R232), the only way a run begins. It is the host's act, not a step of the
core. -/

namespace Sys2Proof.Machine

/-- What the host sends with a launch (R49, R219, R231): the parameters, the configuration, the program in tuple form, whose ids
may still be too wide (R94), and the initial register file. -/
structure LaunchArgs where
  width : Nat
  nreg : Nat
  ipb : Ipb
  map : Mapping
  wcfg : Wcfg
  program : List Tuple
  r0 : List Nat
  deriving DecidableEq, Repr

/-- The loader: every tuple checked, the first bad one named by its index (R94, R232). -/
def loadProgram (W : Nat) : Nat → List Tuple → Except (Nat × DecodeError) (List RawInstr)
  | _, [] => .ok []
  | index, t :: rest =>
    match t.load W with
    | .error e => .error (index, e)
    | .ok r =>
      match loadProgram W (index + 1) rest with
      | .error e => .error e
      | .ok rs => .ok (r :: rs)

/-- The checks of R232 that do not concern the program, in the table's order after the width's own (R6); the first that fails names
the refusal (log 11). -/
def LaunchArgs.refusal? (a : LaunchArgs) : Option Refusal :=
  if a.width = 0 then some .widthZero
  else if a.nreg ∉ Config.registerCounts then some (.registerCount a.nreg)
  else if a.r0.length ≠ a.nreg then some (.registerFileLength a.r0.length a.nreg)
  else if a.r0.any (fun v => decide (2 ^ a.width ≤ v)) then some .initialWordTooWide
  else if a.ipb.en = true ∧ a.nreg ≤ a.ipb.idx then some (.bindingOutOfRange a.ipb.idx)
  else if a.wcfg.en = true ∧ a.nreg ≤ a.wcfg.idx then some (.watchOutOfRange a.wcfg.idx)
  else if a.map.isBijection = false then some .unresolvedMapping
  else none

/-- The state a launch sets: x is R0, pc is 0, STATUS is RUNNING with cause 0, the configuration is the host's, and no mirror takes
place (R231). FINFO is unspecified after a launch (R51), so it is an argument and may be any record (log 8). -/
def LaunchArgs.start (a : LaunchArgs) (program : List RawInstr) (finfo : Finfo) : State where
  width := a.width
  regs := a.r0
  pc := 0
  program := program
  ipb := a.ipb
  map := a.map
  wcfg := a.wcfg
  status := ⟨.running, .none⟩
  finfo := finfo
  suspension := none

/-- A launch: refused by name if a check of R232 fails, the started machine otherwise (R231). -/
def launch (a : LaunchArgs) (finfo : Finfo) : Host.Outcome State Fault Refusal :=
  match a.refusal? with
  | some r => .refused r
  | none =>
    match loadProgram a.width 0 a.program with
    | .error (index, e) => .refused (.badInstruction index e)
    | .ok program =>
      if 2 ^ a.width < program.length then .refused (.programTooLong program.length)
      else .next (a.start program finfo)

end Sys2Proof.Machine
end

