-- ==== Sys2Proof/Machine/Samples.lean ====
section
/-! DEFINITION. Sample consistency (R97, R98): the predicate by which the host fills MAP. It rests on the core's own `evaluate`; the
solver that uses it is out of scope (R5). -/

namespace Sys2Proof.Machine

/-- A labelled observation: precondition, raw instruction, postcondition (R12). -/
structure Sample where
  pre : List Nat
  raw : RawInstr
  post : List Nat
  deriving DecidableEq, Repr

/-- An opcode is consistent with a sample: its range check passes with NREG = `len(pre)`, and `pre` with the result written to x[c]
is `post` in every register. No ip mirror applies (R97). -/
def Sample.consistent (W : Nat) (op : Opcode) (t : Sample) : Bool :=
  let i := op.instr t.raw.a t.raw.b t.raw.c
  (instrForm i).firstOutOfRange t.pre.length == none && t.pre.set t.raw.c (evaluate W t.pre i) == t.post

/-- The opcodes consistent with a sample. -/
def Sample.candidates (W : Nat) (t : Sample) : List Opcode :=
  Opcode.order.toList.filter fun op => t.consistent W op

/-- MAP is consistent with a set of samples: MAP[id] is consistent with every sample whose raw id is `id` (R98). -/
def Mapping.consistentWith (W : Nat) (m : Mapping) (samples : List Sample) : Bool :=
  samples.all fun t => t.consistent W (m.opcode t.raw.id)

end Sys2Proof.Machine
end

