-- ==== Sys2Proof/Safety.lean ====
section
/-! DEFINITION. What the claims speak of: the legal states, the safe states, and what a completed or a faulting instruction leaves. -/

namespace Sys2Proof.Machine

/-- Every register holds a W-bit word (R30). -/
abbrev State.RegistersFit (s : State) : Prop := ∀ v ∈ s.regs, v < 2 ^ s.width

/-- Every slot's fields are W-bit words, and the program is at most `2^W` long (R62, R80, R232). -/
abbrev State.ProgramFits (s : State) : Prop :=
  (∀ r ∈ s.program, r.wellFormed s.width = true) ∧ s.program.length ≤ 2 ^ s.width

/-- The configuration passes the checks of R232: W at least 1, NREG 4 or 6, binding and watched register in range, MAP a bijection. -/
abbrev State.ConfigurationLegal (s : State) : Prop :=
  1 ≤ s.width ∧ s.nreg ∈ Config.registerCounts ∧ (∀ p ∈ s.binding, p < s.nreg) ∧ (∀ w ∈ s.watched, w < s.nreg) ∧
    s.map.isBijection = true

/-- STATUS.CAUSE is 1 in FAULT and 0 otherwise (R43), and in FAULT FINFO names the instruction the pc still points at, and an index
out of range that is a W-bit word (R44, R192, R198). -/
abbrev State.StatusLegal (s : State) : Prop :=
  if s.status.code = .fault then
    s.status.cause = .outOfRangeRegister ∧ s.finfo.pc = s.pc ∧ s.pc < s.program.length ∧
      s.nreg ≤ s.finfo.value ∧ s.finfo.value < 2 ^ s.width
  else s.status.cause = .none

/-- The states a launch makes and every step keeps. -/
abbrev State.Legal (s : State) : Prop :=
  s.ConfigurationLegal ∧ s.RegistersFit ∧ s.ProgramFits ∧ s.StatusLegal

/-- A safe state: the run has not ended in a fault (R190). -/
abbrev State.Safe (s : State) : Prop := s.status.code ≠ .fault

/-- The checked fields of R192's table, opcode by opcode and in the order A, B, C. The claims read this table; the model goes by the
modes of R84 (`instrForm`). -/
def checkedFields : Instr → List (FieldName × Nat)
  | .addr a b c | .mulr a b c | .banr a b c | .borr a b c | .gtrr a b c | .eqrr a b c => [(.a, a), (.b, b), (.c, c)]
  | .addi a _ c | .muli a _ c | .bani a _ c | .bori a _ c | .gtri a _ c | .eqri a _ c => [(.a, a), (.c, c)]
  | .gtir _ b c | .eqir _ b c => [(.b, b), (.c, c)]
  | .setr a _ c => [(.a, a), (.c, c)]
  | .seti _ _ c => [(.c, c)]

/-- The register file the operands are read from: the bound register holds the pc (R117). -/
def State.mirrored (s : State) : List Nat :=
  match s.binding with
  | some p => s.regs.set p s.pc
  | none => s.regs

/-- What a read of register `i` gives during a step: the pc for the bound register, which the mirror has written (R117, R127), and
the register's contents otherwise. -/
def State.source (s : State) (i : Nat) : Nat := if s.binding = some i then s.pc else s.reg i

/-- The next pc from the register file a step leaves (R120, R121, R129). -/
def nextPc (s t : State) : Nat :=
  match s.binding with
  | some p => t.reg p + 1
  | none => s.pc + 1

/-- `t` is what a completed step makes of `s` when it writes `v` to register `c`: x[c] is `v`; every other register reads as during
the step, which is its old value but for the mirrored one (R32, R117, R119); the file keeps its length (R7); the pc is the
next pc (R129); and width, program, configuration, STATUS and FINFO, and the model's note of a suspension, are those of `s` (R63, R201). -/
structure Completed (s t : State) (c : Nat) (v : Nat) : Prop where
  destination : t.reg c = v
  others : ∀ i, i ≠ c → i < s.nreg → t.reg i = s.source i
  length : t.nreg = s.nreg
  pc : t.pc = nextPc s t
  width : t.width = s.width
  program : t.program = s.program
  ipb : t.ipb = s.ipb
  map : t.map = s.map
  wcfg : t.wcfg = s.wcfg
  status : t.status = s.status
  finfo : t.finfo = s.finfo
  suspension : t.suspension = s.suspension

/-- The state after OutOfRangeRegister(pc, field, value): STATUS and FINFO written, every other field as in `s` (R191, R192). -/
def faulted (s : State) (field : FieldName) (value : Nat) : State :=
  { s with status := ⟨.fault, .outOfRangeRegister⟩, finfo := ⟨s.pc, field, value⟩ }

end Sys2Proof.Machine
end

