-- ==== Sys2Proof/Certificates/Slice0/Obligations.lean ====
section
/-! DEFINITION. The statements for the provers. The predicates they share (`Completed`, `faulted`, `State.source`, `State.mirrored`,
`checkedFields`, `State.Legal`) stand in Safety.lean. -/

open Sys2Proof Sys2Proof.Machine

/-- Packed words written in the spec's programs decode to the instructions beside them (derived: R81, R84, 95_test_vectors.md P1,
P2, P3). -/
def Obligations.SpecWordsDecode : Prop :=
  decodeWord 64 Mapping.identity 0x9000000000000000700000000000000000000000000000000 = .ok (.seti 7 0 0) ∧
  decodeWord 64 Mapping.identity 0x2000000000000000000000000000000010000000000000002 = .ok (.mulr 0 1 2) ∧
  decodeWord 64 Mapping.identity 0x1000000000000000200000000000000640000000000000002 = .ok (.addi 2 100 2) ∧
  decodeWord 64 Mapping.identity 0x50000000000000002000000000000000f0000000000000003 = .ok (.bani 2 15 3) ∧
  decodeWord 64 Mapping.identity 0xd000000000000000300000000000000000000000000000003 = .ok (.eqrr 3 0 3) ∧
  decodeWord 64 Mapping.identity 0x6000000000000000300000000000000010000000000000001 = .ok (.borr 3 1 1) ∧
  decodeWord 64 Mapping.identity 0xb000000000000000200000000000000860000000000000000 = .ok (.gtri 2 134 0) ∧
  decodeWord 64 Mapping.identity 0x10000000000000001ffffffffffffffff0000000000000001 = .ok (.addi 1 (2 ^ 64 - 1) 1)

/-- A packed word has C, B, A and ID in its bits from the least significant up, and no bit above (stated: R81). -/
def Obligations.PackedWordBits : Prop :=
  ∀ (W : Nat) (r : RawInstr), r.wellFormed W = true →
    packWord W r < 2 ^ (4 + 3 * W) ∧
    (∀ k < W, (packWord W r).testBit k = r.c.testBit k) ∧
    (∀ k < W, (packWord W r).testBit (W + k) = r.b.testBit k) ∧
    (∀ k < W, (packWord W r).testBit (2 * W + k) = r.a.testBit k) ∧
    (∀ k < 4, (packWord W r).testBit (3 * W + k) = (r.id : Nat).testBit k)

/-- Decode of encode is the identity: every well-formed instruction, every width, every bijective MAP (derived: R80, R81, R83, R88,
R89). -/
def Obligations.EncodedInstructionsDecodeToThemselves : Prop :=
  ∀ (W : Nat) (m : Mapping) (i : Instr), m.isBijection = true → i.wellFormed W = true →
    ∃ w, encodeWord W m i = some w ∧ w < 2 ^ (4 + 3 * W) ∧ decodeWord W m w = .ok i

/-- Every packed word decodes to a well-formed instruction that encodes to that word; larger numbers are refused (derived: R81, R88,
R89, R93; rests on log 16). -/
def Obligations.EveryPackedWordIsOneInstruction : Prop :=
  ∀ (W : Nat) (m : Mapping), m.isBijection = true →
    (∀ w < 2 ^ (4 + 3 * W), ∃ i, decodeWord W m w = .ok i ∧ i.wellFormed W = true ∧ encodeWord W m i = some w) ∧
    (∀ w, 2 ^ (4 + 3 * W) ≤ w → ∃ id, 16 ≤ id ∧ decodeWord W m w = .error (.idOutOfRange id))

/-- MAP passes the check exactly when every opcode is denoted by exactly one id; otherwise no launch takes place (stated: R89). -/
def Obligations.BijectiveMappingDenotesEachOpcodeOnce : Prop :=
  (∀ m : Mapping, m.isBijection = true ↔ ∀ op : Opcode, ∃! id : Fin 16, m.opcode id = op) ∧
  (∀ (a : LaunchArgs) (f : Finfo), a.map.isBijection = false → ∃ r, launch a f = .refused r)

/-- A raw id outside [0,16) is refused naming the instruction's index, and no packed word can hold one (stated: R94). -/
def Obligations.WideIdsAreRefusedByIndex : Prop :=
  (∀ (a : LaunchArgs) (f : Finfo) (k : Nat) (t : Tuple), a.refusal? = none → a.program[k]? = some t → 16 ≤ t.id →
    (∀ j u, j < k → a.program[j]? = some u → ∃ r, u.load a.width = .ok r) →
    launch a f = .refused (.badInstruction k (.idOutOfRange t.id))) ∧
  (∀ (W : Nat) (r : RawInstr), r.wellFormed W = true → packWord W r / 2 ^ (3 * W) < 16)

/-- addr: x[C] becomes x[A] + x[B] modulo 2^W, with its frame and its faults (stated: R140). -/
def Obligations.AddrWritesTheWrappedSum : Prop :=
  (∀ (m : Mapping) (r : RawInstr), m[r.id] = 0 → decode m r = .addr r.a r.b r.c) ∧
  ∀ (s : State) (a b c : Nat),
    (a < s.nreg → b < s.nreg → c < s.nreg → ∃ t, exec (.addr a b c) s = .next t ∧ Completed s t c ((s.source a + s.source b) % 2 ^ s.width)) ∧
    (s.nreg ≤ a → exec (.addr a b c) s = .next (faulted s .a a)) ∧
    (a < s.nreg → s.nreg ≤ b → exec (.addr a b c) s = .next (faulted s .b b)) ∧
    (a < s.nreg → b < s.nreg → s.nreg ≤ c → exec (.addr a b c) s = .next (faulted s .c c))

/-- addi: x[C] becomes x[A] + B modulo 2^W, with its frame and its faults (stated: R141). -/
def Obligations.AddiWritesTheWrappedSum : Prop :=
  (∀ (m : Mapping) (r : RawInstr), m[r.id] = 1 → decode m r = .addi r.a r.b r.c) ∧
  ∀ (s : State) (a b c : Nat),
    (a < s.nreg → c < s.nreg → ∃ t, exec (.addi a b c) s = .next t ∧ Completed s t c ((s.source a + b) % 2 ^ s.width)) ∧
    (s.nreg ≤ a → exec (.addi a b c) s = .next (faulted s .a a)) ∧
    (a < s.nreg → s.nreg ≤ c → exec (.addi a b c) s = .next (faulted s .c c))

/-- mulr: x[C] becomes the low W bits of x[A] * x[B], with its frame and its faults (stated: R142). -/
def Obligations.MulrWritesTheLowProduct : Prop :=
  (∀ (m : Mapping) (r : RawInstr), m[r.id] = 2 → decode m r = .mulr r.a r.b r.c) ∧
  ∀ (s : State) (a b c : Nat),
    (a < s.nreg → b < s.nreg → c < s.nreg → ∃ t, exec (.mulr a b c) s = .next t ∧ Completed s t c ((s.source a * s.source b) % 2 ^ s.width)) ∧
    (s.nreg ≤ a → exec (.mulr a b c) s = .next (faulted s .a a)) ∧
    (a < s.nreg → s.nreg ≤ b → exec (.mulr a b c) s = .next (faulted s .b b)) ∧
    (a < s.nreg → b < s.nreg → s.nreg ≤ c → exec (.mulr a b c) s = .next (faulted s .c c))

/-- muli: x[C] becomes the low W bits of x[A] * B, with its frame and its faults (stated: R143). -/
def Obligations.MuliWritesTheLowProduct : Prop :=
  (∀ (m : Mapping) (r : RawInstr), m[r.id] = 3 → decode m r = .muli r.a r.b r.c) ∧
  ∀ (s : State) (a b c : Nat),
    (a < s.nreg → c < s.nreg → ∃ t, exec (.muli a b c) s = .next t ∧ Completed s t c ((s.source a * b) % 2 ^ s.width)) ∧
    (s.nreg ≤ a → exec (.muli a b c) s = .next (faulted s .a a)) ∧
    (a < s.nreg → s.nreg ≤ c → exec (.muli a b c) s = .next (faulted s .c c))

/-- banr: x[C] becomes the bitwise AND of x[A] and x[B], with its frame and its faults (stated: R150). -/
def Obligations.BanrWritesTheAnd : Prop :=
  (∀ (m : Mapping) (r : RawInstr), m[r.id] = 4 → decode m r = .banr r.a r.b r.c) ∧
  ∀ (s : State) (a b c : Nat),
    (a < s.nreg → b < s.nreg → c < s.nreg → ∃ t, exec (.banr a b c) s = .next t ∧ Completed s t c (s.source a &&& s.source b)) ∧
    (s.nreg ≤ a → exec (.banr a b c) s = .next (faulted s .a a)) ∧
    (a < s.nreg → s.nreg ≤ b → exec (.banr a b c) s = .next (faulted s .b b)) ∧
    (a < s.nreg → b < s.nreg → s.nreg ≤ c → exec (.banr a b c) s = .next (faulted s .c c))

/-- bani: x[C] becomes the bitwise AND of x[A] and B, with its frame and its faults (stated: R151). -/
def Obligations.BaniWritesTheAnd : Prop :=
  (∀ (m : Mapping) (r : RawInstr), m[r.id] = 5 → decode m r = .bani r.a r.b r.c) ∧
  ∀ (s : State) (a b c : Nat),
    (a < s.nreg → c < s.nreg → ∃ t, exec (.bani a b c) s = .next t ∧ Completed s t c (s.source a &&& b)) ∧
    (s.nreg ≤ a → exec (.bani a b c) s = .next (faulted s .a a)) ∧
    (a < s.nreg → s.nreg ≤ c → exec (.bani a b c) s = .next (faulted s .c c))

/-- borr: x[C] becomes the bitwise OR of x[A] and x[B], with its frame and its faults (stated: R152). -/
def Obligations.BorrWritesTheOr : Prop :=
  (∀ (m : Mapping) (r : RawInstr), m[r.id] = 6 → decode m r = .borr r.a r.b r.c) ∧
  ∀ (s : State) (a b c : Nat),
    (a < s.nreg → b < s.nreg → c < s.nreg → ∃ t, exec (.borr a b c) s = .next t ∧ Completed s t c (s.source a ||| s.source b)) ∧
    (s.nreg ≤ a → exec (.borr a b c) s = .next (faulted s .a a)) ∧
    (a < s.nreg → s.nreg ≤ b → exec (.borr a b c) s = .next (faulted s .b b)) ∧
    (a < s.nreg → b < s.nreg → s.nreg ≤ c → exec (.borr a b c) s = .next (faulted s .c c))

/-- bori: x[C] becomes the bitwise OR of x[A] and B, with its frame and its faults (stated: R153). -/
def Obligations.BoriWritesTheOr : Prop :=
  (∀ (m : Mapping) (r : RawInstr), m[r.id] = 7 → decode m r = .bori r.a r.b r.c) ∧
  ∀ (s : State) (a b c : Nat),
    (a < s.nreg → c < s.nreg → ∃ t, exec (.bori a b c) s = .next t ∧ Completed s t c (s.source a ||| b)) ∧
    (s.nreg ≤ a → exec (.bori a b c) s = .next (faulted s .a a)) ∧
    (a < s.nreg → s.nreg ≤ c → exec (.bori a b c) s = .next (faulted s .c c))

/-- setr: x[C] becomes x[A], with its frame and its faults (stated: R160). -/
def Obligations.SetrCopiesTheRegister : Prop :=
  (∀ (m : Mapping) (r : RawInstr), m[r.id] = 8 → decode m r = .setr r.a r.b r.c) ∧
  ∀ (s : State) (a b c : Nat),
    (a < s.nreg → c < s.nreg → ∃ t, exec (.setr a b c) s = .next t ∧ Completed s t c (s.source a)) ∧
    (s.nreg ≤ a → exec (.setr a b c) s = .next (faulted s .a a)) ∧
    (a < s.nreg → s.nreg ≤ c → exec (.setr a b c) s = .next (faulted s .c c))

/-- seti: x[C] becomes A, with its frame and its faults (stated: R161). -/
def Obligations.SetiWritesTheImmediate : Prop :=
  (∀ (m : Mapping) (r : RawInstr), m[r.id] = 9 → decode m r = .seti r.a r.b r.c) ∧
  ∀ (s : State) (a b c : Nat),
    (c < s.nreg → ∃ t, exec (.seti a b c) s = .next t ∧ Completed s t c (a)) ∧
    (s.nreg ≤ c → exec (.seti a b c) s = .next (faulted s .c c))

/-- gtrr: x[C] becomes 1 if x[A] > x[B] (unsigned), else 0, with its frame and its faults (stated: R170). -/
def Obligations.GtrrWritesTheComparison : Prop :=
  (∀ (m : Mapping) (r : RawInstr), m[r.id] = 10 → decode m r = .gtrr r.a r.b r.c) ∧
  ∀ (s : State) (a b c : Nat),
    (a < s.nreg → b < s.nreg → c < s.nreg → ∃ t, exec (.gtrr a b c) s = .next t ∧ Completed s t c (if s.source a > s.source b then 1 else 0)) ∧
    (s.nreg ≤ a → exec (.gtrr a b c) s = .next (faulted s .a a)) ∧
    (a < s.nreg → s.nreg ≤ b → exec (.gtrr a b c) s = .next (faulted s .b b)) ∧
    (a < s.nreg → b < s.nreg → s.nreg ≤ c → exec (.gtrr a b c) s = .next (faulted s .c c))

/-- gtri: x[C] becomes 1 if x[A] > B (unsigned), else 0, with its frame and its faults (stated: R171). -/
def Obligations.GtriWritesTheComparison : Prop :=
  (∀ (m : Mapping) (r : RawInstr), m[r.id] = 11 → decode m r = .gtri r.a r.b r.c) ∧
  ∀ (s : State) (a b c : Nat),
    (a < s.nreg → c < s.nreg → ∃ t, exec (.gtri a b c) s = .next t ∧ Completed s t c (if s.source a > b then 1 else 0)) ∧
    (s.nreg ≤ a → exec (.gtri a b c) s = .next (faulted s .a a)) ∧
    (a < s.nreg → s.nreg ≤ c → exec (.gtri a b c) s = .next (faulted s .c c))

/-- gtir: x[C] becomes 1 if A > x[B] (unsigned), else 0, with its frame and its faults (stated: R172). -/
def Obligations.GtirWritesTheComparison : Prop :=
  (∀ (m : Mapping) (r : RawInstr), m[r.id] = 12 → decode m r = .gtir r.a r.b r.c) ∧
  ∀ (s : State) (a b c : Nat),
    (b < s.nreg → c < s.nreg → ∃ t, exec (.gtir a b c) s = .next t ∧ Completed s t c (if a > s.source b then 1 else 0)) ∧
    (s.nreg ≤ b → exec (.gtir a b c) s = .next (faulted s .b b)) ∧
    (b < s.nreg → s.nreg ≤ c → exec (.gtir a b c) s = .next (faulted s .c c))

/-- eqrr: x[C] becomes 1 if x[A] equals x[B], else 0, with its frame and its faults (stated: R173). -/
def Obligations.EqrrWritesTheComparison : Prop :=
  (∀ (m : Mapping) (r : RawInstr), m[r.id] = 13 → decode m r = .eqrr r.a r.b r.c) ∧
  ∀ (s : State) (a b c : Nat),
    (a < s.nreg → b < s.nreg → c < s.nreg → ∃ t, exec (.eqrr a b c) s = .next t ∧ Completed s t c (if s.source a = s.source b then 1 else 0)) ∧
    (s.nreg ≤ a → exec (.eqrr a b c) s = .next (faulted s .a a)) ∧
    (a < s.nreg → s.nreg ≤ b → exec (.eqrr a b c) s = .next (faulted s .b b)) ∧
    (a < s.nreg → b < s.nreg → s.nreg ≤ c → exec (.eqrr a b c) s = .next (faulted s .c c))

/-- eqri: x[C] becomes 1 if x[A] equals B, else 0, with its frame and its faults (stated: R174). -/
def Obligations.EqriWritesTheComparison : Prop :=
  (∀ (m : Mapping) (r : RawInstr), m[r.id] = 14 → decode m r = .eqri r.a r.b r.c) ∧
  ∀ (s : State) (a b c : Nat),
    (a < s.nreg → c < s.nreg → ∃ t, exec (.eqri a b c) s = .next t ∧ Completed s t c (if s.source a = b then 1 else 0)) ∧
    (s.nreg ≤ a → exec (.eqri a b c) s = .next (faulted s .a a)) ∧
    (a < s.nreg → s.nreg ≤ c → exec (.eqri a b c) s = .next (faulted s .c c))

/-- eqir: x[C] becomes 1 if A equals x[B], else 0, with its frame and its faults (stated: R175). -/
def Obligations.EqirWritesTheComparison : Prop :=
  (∀ (m : Mapping) (r : RawInstr), m[r.id] = 15 → decode m r = .eqir r.a r.b r.c) ∧
  ∀ (s : State) (a b c : Nat),
    (b < s.nreg → c < s.nreg → ∃ t, exec (.eqir a b c) s = .next t ∧ Completed s t c (if a = s.source b then 1 else 0)) ∧
    (s.nreg ≤ b → exec (.eqir a b c) s = .next (faulted s .b b)) ∧
    (b < s.nreg → s.nreg ≤ c → exec (.eqir a b c) s = .next (faulted s .c c))

/-- Every comparison writes exactly 0 or 1 to x[C] and leaves STATUS alone (derived: R176, R45). -/
def Obligations.ComparisonsWriteZeroOrOne : Prop :=
  ∀ (i : Instr) (s : State), i.opcode ∈ [Opcode.gtrr, .gtri, .gtir, .eqrr, .eqri, .eqir] →
    (∀ p ∈ checkedFields i, p.2 < s.nreg) →
    ∃ t, exec i s = .next t ∧ (t.reg i.fieldC = 0 ∨ t.reg i.fieldC = 1) ∧ t.status = s.status ∧ t.finfo = s.finfo

/-- AND and OR work bit by bit and stay within the operands' width (derived: R150, R151, R152, R153, R154). -/
def Obligations.LogicResultsWorkBitByBit : Prop :=
  ∀ (s : State) (a b c : Nat), a < s.nreg → c < s.nreg →
    (b < s.nreg → ∃ t, exec (.banr a b c) s = .next t ∧
      (∀ k, (t.reg c).testBit k = ((s.source a).testBit k && (s.source b).testBit k)) ∧
      t.reg c ≤ s.source a ∧ t.reg c ≤ s.source b) ∧
    (∃ t, exec (.bani a b c) s = .next t ∧
      (∀ k, (t.reg c).testBit k = ((s.source a).testBit k && b.testBit k)) ∧ t.reg c ≤ s.source a ∧ t.reg c ≤ b) ∧
    (b < s.nreg → ∃ t, exec (.borr a b c) s = .next t ∧
      (∀ k, (t.reg c).testBit k = ((s.source a).testBit k || (s.source b).testBit k)) ∧
      (s.source a < 2 ^ s.width → s.source b < 2 ^ s.width → t.reg c < 2 ^ s.width)) ∧
    (∃ t, exec (.bori a b c) s = .next t ∧
      (∀ k, (t.reg c).testBit k = ((s.source a).testBit k || b.testBit k)) ∧
      (s.source a < 2 ^ s.width → b < 2 ^ s.width → t.reg c < 2 ^ s.width))

/-- OutOfRangeRegister: raised by all 16 instructions for the first checked field at or past NREG, and only then (stated: R192). -/
def Obligations.FirstCheckedFieldOutOfRangeFaults : Prop :=
  (∀ (i : Instr) (s : State),
    match (checkedFields i).find? (fun p => decide (s.nreg ≤ p.2)) with
    | some (field, value) =>
      exec i s = .next { s with status := ⟨.fault, .outOfRangeRegister⟩, finfo := ⟨s.pc, field, value⟩ }
    | none => ∃ t, exec i s = .next t ∧ t.status = s.status ∧ t.finfo = s.finfo) ∧
  Cause.outOfRangeRegister.number = 1 ∧ fieldNumber .a = 0 ∧ fieldNumber .b = 1 ∧ fieldNumber .c = 2

/-- raise: STATUS and FINFO are written, nothing else changes, and the run is over (stated: R191). -/
def Obligations.RaisingIsFinal : Prop :=
  ∀ (s : State) (e : Cause) (field : FieldName) (v : Nat),
    (s.raise e field v).regs = s.regs ∧ (s.raise e field v).pc = s.pc ∧
    (s.raise e field v).status = ⟨.fault, e⟩ ∧ (s.raise e field v).finfo = ⟨s.pc, field, v⟩ ∧
    s.raise e field v = { s with status := ⟨.fault, e⟩, finfo := ⟨s.pc, field, v⟩ } ∧
    step (s.raise e field v) = .fault .faulted ∧
    (∀ i u, hostWriteReg i u (s.raise e field v) = .refused .notSuspended) ∧
    (∀ n, hostSetPc n (s.raise e field v) = .refused .notSuspended) ∧
    hostResume (s.raise e field v) = .refused .notSuspended ∧
    hostResumeRaising (s.raise e field v) = .refused .notSuspended

/-- Every instruction writes evaluate of the file in which the bound register holds the pc (derived: R115, R116, R117, R118, R119,
R127, R128). -/
def Obligations.InstructionsComputeOnTheMirroredFile : Prop :=
  ∀ (i : Instr) (s : State), (∀ p ∈ checkedFields i, p.2 < s.nreg) →
    ∃ t, exec i s = .next t ∧ Completed s t i.fieldC (evaluate s.width s.mirrored i)

/-- A step runs the instruction that the slot at the pc decodes to (derived: R110, R112, R113, R212). -/
def Obligations.StepRunsTheDecodedInstruction : Prop :=
  ∀ (s : State) (r : RawInstr), s.status.code = .running → s.program[s.pc]? = some r →
    (∀ w, s.watched = some w → (instrForm (decode s.map r)).touches w = false) →
    step s = exec (decode s.map r) s

/-- The outcome of a step is the first of: end of program, watch-halt, range fault, completion (derived: R197, R110, R212; rests on
log 12). -/
def Obligations.OneOutcomeByPriority : Prop :=
  ∀ (s : State), s.status.code = .running →
    if h : s.pc < s.program.length then
      let i := decode s.map s.program[s.pc]
      if ∃ w ∈ s.watched, ∃ p ∈ checkedFields i, p.2 = w then
        step s = .next { s with status := ⟨.watchHalt, s.status.cause⟩, suspension := some ⟨s.pc, s.regs⟩ }
      else
        match (checkedFields i).find? (fun p => decide (s.nreg ≤ p.2)) with
        | some (field, value) => step s = .next (faulted s field value)
        | none => ∃ t, step s = .next t ∧ Completed s t i.fieldC (evaluate s.width s.mirrored i)
    else step s = .next { s with status := ⟨.halted, s.status.cause⟩ }

/-- A step halts exactly when the pc is at or past the end of the program, and then changes nothing else (stated: R111). -/
def Obligations.ProgramEndHaltsAndNothingElseDoes : Prop :=
  ∀ (s : State), s.status.code = .running →
    (s.program.length ≤ s.pc → step s = .next { s with status := ⟨.halted, s.status.cause⟩ }) ∧
    (s.pc < s.program.length → ∃ t, step s = .next t ∧ t.status.code ≠ .halted)

/-- A launched program of length zero halts at the first step with the initial registers, and no mirror takes place (stated: R133). -/
def Obligations.EmptyProgramHaltsUnchanged : Prop :=
  ∀ (a : LaunchArgs) (f : Finfo) (s : State), a.program = [] → launch a f = .next s →
    ∃ t, step s = .next t ∧ t.status.code = .halted ∧ t.pc = 0 ∧ t.regs = a.r0

/-- The run status moves only along the edges of the table; HALTED and FAULT are final (stated: R190). -/
def Obligations.StatusMovesAlongItsEdges : Prop :=
  (∀ (a : LaunchArgs) (f : Finfo) (s : State), launch a f = .next s → s.status.code = .running) ∧
  (∀ s : State, s.status.code = .running → ∃ t, step s = .next t) ∧
  (∀ s t : State, step s = .next t → s.status.code = .running ∧
    (t.status.code = .running ∨
     (t.status.code = .halted ∧ s.program.length ≤ s.pc) ∨
     (∃ r, s.program[s.pc]? = some r ∧
       ((t.status.code = .watchHalt ∧ ∃ w ∈ s.watched, ∃ p ∈ checkedFields (decode s.map r), p.2 = w) ∨
        (t.status.code = .fault ∧ ∃ p ∈ checkedFields (decode s.map r), s.nreg ≤ p.2))))) ∧
  (∀ s : State, s.status.code ≠ .running → ∃ f, step s = .fault f) ∧
  (∀ s : State, s.status.code = .watchHalt → ∃ t, hostResume s = .next t ∧ t.status.code = .running) ∧
  (∀ s : State, s.status.code = .halted ∨ s.status.code = .fault →
    hostResume s = .refused .notSuspended ∧ hostResumeRaising s = .refused .notSuspended ∧ (∀ n, hostSetPc n s = .refused .notSuspended) ∧
    ∀ i v, hostWriteReg i v s = .refused .notSuspended)

/-- A step that halts, suspends or faults writes no register and no pc; any other step makes all its writes (stated: R122). -/
def Obligations.StepsAreIndivisible : Prop :=
  ∀ s t : State, step s = .next t →
    (t.status.code ≠ .running →
      t.regs = s.regs ∧ t.pc = s.pc ∧ t.program = s.program ∧ t.width = s.width ∧ t.ipb = s.ipb ∧ t.map = s.map ∧
        t.wcfg = s.wcfg) ∧
    (t.status.code = .running →
      ∃ r, s.program[s.pc]? = some r ∧
        Completed s t (decode s.map r).fieldC (evaluate s.width s.mirrored (decode s.map r)))

/-- No step and no host service changes the program memory (stated: R63). -/
def Obligations.ProgramNeverChanges : Prop :=
  (∀ s t : State, step s = .next t → t.program = s.program) ∧
  (∀ (s t : State) (i v : Nat), hostWriteReg i v s = .next t → t.program = s.program) ∧
  (∀ (s t : State) (n : Nat), hostSetPc n s = .next t → t.program = s.program) ∧
  (∀ s t : State, hostResume s = .next t ∨ hostResumeRaising s = .next t → t.program = s.program) ∧
  (∀ (s t : State) (i n : Nat), resumeAction i n s = .next t → t.program = s.program)

/-- No step and no host service changes W, NREG, IPB, MAP or WCFG, and no completed instruction reaches STATUS or FINFO (derived:
R7, R40, R41, R42, R201, R214). -/
def Obligations.ConfigurationIsConstantDuringARun : Prop :=
  (∀ s t : State, step s = .next t →
    (t.width = s.width ∧ t.nreg = s.nreg ∧ t.ipb = s.ipb ∧ t.map = s.map ∧ t.wcfg = s.wcfg) ∧
    (t.status.code = .running → t.status = s.status ∧ t.finfo = s.finfo)) ∧
  (∀ (s t : State) (i v n : Nat), hostWriteReg i v s = .next t ∨ hostSetPc n s = .next t ∨ hostResume s = .next t ∨
      resumeAction i n s = .next t ∨ hostResumeRaising s = .next t →
    t.width = s.width ∧ t.nreg = s.nreg ∧ t.ipb = s.ipb ∧ t.map = s.map ∧ t.wcfg = s.wcfg)

/-- Every step from a legal state leads to a legal state (derived: R6, R7, R30, R33, R40, R41, R42, R43, R44, R117, R123). -/
def Obligations.StepsKeepLegalStates : Prop :=
  ∀ s t : State, s.Legal → step s = .next t → t.Legal

/-- The reset state is legal (derived: R51, R230, R231; rests on log 19, log 3 to 6, log 7). -/
def Obligations.ResetIsLegal : Prop :=
  State.reset.Legal

/-- Every accepted launch starts in a legal state, whatever FINFO holds (derived: R231, R232). -/
def Obligations.LaunchMakesLegalStates : Prop :=
  ∀ (a : LaunchArgs) (f : Finfo) (s : State), launch a f = .next s → s.Legal

/-- The host's register write, pc write, resumes and resume action keep a legal state legal (derived: R214, R215, R216, R219; rests
on log 12). -/
def Obligations.HostServiceKeepsLegalStates : Prop :=
  ∀ s t : State, s.Legal →
    (∀ i v, hostWriteReg i v s = .next t → t.Legal) ∧ (∀ n, hostSetPc n s = .next t → t.Legal) ∧
    (hostResume s = .next t → t.Legal) ∧ (hostResumeRaising s = .next t → t.Legal) ∧
    (∀ i n, resumeAction i n s = .next t → t.Legal)

/-- Launch: x is R0, pc is 0, the configuration is the host's, STATUS is RUNNING with cause 0, and no mirror takes place (stated:
R231). -/
def Obligations.LaunchSetsTheStartState : Prop :=
  ∀ (a : LaunchArgs) (f : Finfo) (s : State), launch a f = .next s →
    s.regs = a.r0 ∧ s.nreg = a.nreg ∧ s.pc = 0 ∧ s.ipb = a.ipb ∧ s.map = a.map ∧ s.wcfg = a.wcfg ∧
    s.status = ⟨.running, .none⟩ ∧ s.width = a.width ∧
    List.Forall₂ (fun (t : Tuple) (r : RawInstr) => t.id = r.id ∧ t.a = r.a ∧ t.b = r.b ∧ t.c = r.c) a.program s.program

/-- A launch is accepted exactly when every check of the table passes, and refused otherwise (stated: R232). -/
def Obligations.LaunchIsRefusedExactlyWhenACheckFails : Prop :=
  ∀ (a : LaunchArgs) (f : Finfo), 1 ≤ a.width →
    ((∃ s, launch a f = .next s) ↔
      (a.nreg = 4 ∨ a.nreg = 6) ∧ a.r0.length = a.nreg ∧ (∀ v ∈ a.r0, v < 2 ^ a.width) ∧
      (a.ipb.en = true → a.ipb.idx < a.nreg) ∧ (a.wcfg.en = true → a.wcfg.idx < a.nreg) ∧
      Function.Bijective a.map.opcode ∧ (∀ t ∈ a.program, t.id < 16) ∧
      (∀ t ∈ a.program, t.a < 2 ^ a.width ∧ t.b < 2 ^ a.width ∧ t.c < 2 ^ a.width) ∧
      a.program.length ≤ 2 ^ a.width) ∧
    ((∀ s, launch a f ≠ .next s) → ∃ r, launch a f = .refused r)

/-- The model's reset: pc 0 and RUNNING as after a launch (log 19), the launch default MAP (log 7), no program (log 5); its first
step halts (derived: R41, R51, R231, R233; rests on log 19, log 5, log 7). -/
def Obligations.ResetIsAnEmptyRun : Prop :=
  State.reset.pc = 0 ∧ State.reset.status = ⟨.running, .none⟩ ∧ (∀ k : Fin 16, State.reset.map[k] = k) ∧
  step State.reset = .next { State.reset with status := ⟨.halted, .none⟩ }

/-- The next pc: pc + 1 without a binding, x[IPREG] + 1 with one, where x[IPREG] is the mirrored pc unless C is IPREG (stated:
R129). -/
def Obligations.NextPcOfEveryInstruction : Prop :=
  ∀ (i : Instr) (s : State), (∀ p ∈ checkedFields i, p.2 < s.nreg) →
    ∃ t, exec i s = .next t ∧
      (s.binding = none → t.pc = s.pc + 1) ∧
      (∀ p, s.binding = some p → t.pc = t.reg p + 1 ∧ (i.fieldC ≠ p → p < s.nreg → t.reg p = s.pc))

/-- A bound register holding 2^W - 1 gives next pc 2^W, and the next step halts (stated: R37). -/
def Obligations.PcNeverWraps : Prop :=
  ∀ (i : Instr) (s : State) (p : Nat), s.Legal → s.status.code = .running → s.binding = some p →
    (∀ q ∈ checkedFields i, q.2 < s.nreg) →
    ∃ t, exec i s = .next t ∧ t.pc = t.reg p + 1 ∧
      (t.reg p = 2 ^ s.width - 1 →
        t.pc = 2 ^ s.width ∧ t.program.length ≤ t.pc ∧ step t = .next { t with status := ⟨.halted, t.status.cause⟩ })

/-- Jumps: seti to t + 1, setr to x[A] + 1, addi by k, addr of a comparison result skips; none reaches index 0 (derived: R126, R241,
R242). -/
def Obligations.WritesToTheBoundRegisterJump : Prop :=
  (∀ (s : State) (p : Nat), s.binding = some p → p < s.nreg →
    (∀ k b, ∃ t, exec (.seti k b p) s = .next t ∧ t.pc = k + 1) ∧
    (∀ q b, q ≠ p → q < s.nreg → ∃ t, exec (.setr q b p) s = .next t ∧ t.pc = s.reg q + 1) ∧
    (∀ k, s.pc + k < 2 ^ s.width → ∃ t, exec (.addi p k p) s = .next t ∧ t.pc = s.pc + k + 1) ∧
    (∀ q, q ≠ p → q < s.nreg → s.pc + s.reg q < 2 ^ s.width →
      ∃ t, exec (.addr p q p) s = .next t ∧ t.pc = s.pc + s.reg q + 1)) ∧
  (∀ (i : Instr) (s : State), (∀ p ∈ checkedFields i, p.2 < s.nreg) → ∃ t, exec i s = .next t ∧ t.pc ≠ 0)

/-- Without a binding every run stops within the instructions left in the program, plus one step (derived: R111, R121, R126, R134). -/
def Obligations.UnboundRunsEnd : Prop :=
  ∀ s : State, s.binding = none → s.status.code = .running →
    (runFuel (s.program.length - s.pc + 1) s).1 ∈ [Verdict.halted, .faulted, .suspended]

/-- An instruction touches w exactly when A in register mode, B in register mode or C equals w (stated: R211). -/
def Obligations.TouchesExactlyTheRegisterFields : Prop :=
  ∀ (i : Instr) (w : Nat), (instrForm i).touches w = true ↔ ∃ p ∈ checkedFields i, p.2 = w

/-- With WCFG.EN = 1, every step at an instruction that touches the watched register only sets WATCH_HALT; no other step suspends
(derived: R110, R211, R212; rests on log 12). -/
def Obligations.WatchHaltComesBeforeTheInstruction : Prop :=
  (∀ (s : State) (r : RawInstr), s.status.code = .running → s.wcfg.en = true → s.program[s.pc]? = some r →
    (∃ p ∈ checkedFields (decode s.map r), p.2 = s.wcfg.idx) →
    step s = .next { s with status := ⟨.watchHalt, s.status.cause⟩, suspension := some ⟨s.pc, s.regs⟩ }) ∧
  (∀ s t : State, step s = .next t → t.status.code = .watchHalt →
    t.suspension = some ⟨s.pc, s.regs⟩ ∧
    s.wcfg.en = true ∧ ∃ r, s.program[s.pc]? = some r ∧ ∃ p ∈ checkedFields (decode s.map r), p.2 = s.wcfg.idx)

/-- In WATCH_HALT the host may write any register with any W-bit word and set pc to any natural; refusing it elsewhere is the
model's choice (log 15) (derived: R33, R214, R219; rests on log 15). -/
def Obligations.HostWritesOnlyWhileSuspended : Prop :=
  (∀ (s : State) (i v : Nat), s.status.code = .watchHalt → i < s.nreg → v < 2 ^ s.width →
    ∃ t, hostWriteReg i v s = .next t ∧ t.reg i = v ∧ (∀ j, j ≠ i → t.reg j = s.reg j) ∧ t.nreg = s.nreg ∧
      t = { s with regs := t.regs }) ∧
  (∀ (s : State) (n : Nat), s.status.code = .watchHalt → hostSetPc n s = .next { s with pc := n }) ∧
  (∀ (s : State) (i v n : Nat), s.status.code ≠ .watchHalt →
    hostWriteReg i v s = .refused .notSuspended ∧ hostSetPc n s = .refused .notSuspended)

/-- A resume at the same pc and a step suspend again whatever registers the host wrote; the resume of R197's remark raises a waiting
fault (log 12) (derived: R197, R211, R212, R215; rests on log 12). -/
def Obligations.ResumeWithoutMovingThePcSuspendsAgain : Prop :=
  ∀ (s : State), s.status.code = .watchHalt →
    hostResume s = .next { s with status := ⟨.running, s.status.cause⟩ } ∧
    (∀ (r : RawInstr) (x : List Nat), s.program[s.pc]? = some r →
      (∃ w ∈ s.watched, ∃ p ∈ checkedFields (decode s.map r), p.2 = w) →
      (∃ u, hostResume { s with regs := x } = .next u ∧
        step u = .next { s with regs := x, suspension := some ⟨s.pc, x⟩ }) ∧
      (∀ field v, s.suspension = some ⟨s.pc, x⟩ →
        (checkedFields (decode s.map r)).find? (fun p => decide (x.length ≤ p.2)) = some (field, v) →
        hostResumeRaising { s with regs := x } = .next (faulted { s with regs := x } field v)) ∧
      ((s.suspension ≠ some ⟨s.pc, x⟩ ∨ ∀ p ∈ checkedFields (decode s.map r), p.2 < x.length) →
        hostResumeRaising { s with regs := x } = .next { s with regs := x, suspension := some ⟨s.pc, x⟩ }))

/-- The resume action: x[MISSREG] becomes 0, pc advances by ADV, and the core is RUNNING (derived: R214, R215, R216). -/
def Obligations.ResumeActionZeroesAndAdvances : Prop :=
  ∀ (s : State) (miss adv : Nat), s.status.code = .watchHalt → miss < s.nreg →
    ∃ t, resumeAction miss adv s = .next t ∧ t.reg miss = 0 ∧ (∀ j, j ≠ miss → t.reg j = s.reg j) ∧
      t.nreg = s.nreg ∧ t.pc = s.pc + adv ∧ t.status.code = .running ∧
      t = { s with regs := t.regs, pc := t.pc, status := ⟨.running, s.status.cause⟩ }

/-- A step that does not suspend does the same under the Natural policy (derived: R132, R211, R212). -/
def Obligations.WatchingChangesNothingButTheSuspension : Prop :=
  ∀ (s t : State) (k : Fin 8), step s = .next t → t.status.code ≠ .watchHalt →
    step { s with wcfg := ⟨false, k⟩ } = .next { t with wcfg := ⟨false, k⟩ }

/-- FINFO has no influence on a step, and a fault overwrites all of it (derived: R44, R51, 93_implementation_defined.md U10). -/
def Obligations.FaultRecordIsNeverRead : Prop :=
  (∀ (s t : State) (f : Finfo), step s = .next t →
    ∃ u, step { s with finfo := f } = .next u ∧ { u with finfo := t.finfo } = t ∧
      (t.status.code = .fault → u.finfo = t.finfo)) ∧
  (∀ s : State, s.status.code ≠ .fault → s.faultRecord = none)

/-- IPB.IDX and WCFG.IDX have no influence while their EN is 0 (derived: R40, R42, 93_implementation_defined.md U11). -/
def Obligations.DisabledIndexBitsAreIgnored : Prop :=
  (∀ (s t : State) (k : Fin 8), s.ipb.en = false → step s = .next t →
    step { s with ipb := ⟨false, k⟩ } = .next { t with ipb := ⟨false, k⟩ }) ∧
  (∀ (s t : State) (k : Fin 8), s.wcfg.en = false → step s = .next t →
    step { s with wcfg := ⟨false, k⟩ } = .next { t with wcfg := ⟨false, k⟩ })

/-- setr and seti use operand A only: field B has no effect on the instruction, its checks or its touches (stated: R87). -/
def Obligations.AssignIgnoresOperandB : Prop :=
  ∀ (a b b' c : Nat) (s : State),
    exec (.setr a b c) s = exec (.setr a b' c) s ∧ exec (.seti a b c) s = exec (.seti a b' c) s ∧
    instrForm (.setr a b c) = ⟨.reg a, none, c⟩ ∧ instrForm (.seti a b c) = ⟨.imm a, none, c⟩ ∧
    checkedFields (.setr a b c) = checkedFields (.setr a b' c) ∧ checkedFields (.seti a b c) = checkedFields (.seti a b' c)

/-- An opcode is consistent with a sample exactly when executing it without a binding turns pre into post (derived: R97). -/
def Obligations.SampleConsistencyIsOneUnboundInstruction : Prop :=
  ∀ (s : State) (op : Opcode) (t : Sample), s.binding = none → s.status.code = .running → s.regs = t.pre →
    (t.consistent s.width op = true ↔
      ∃ u, exec (op.instr t.raw.a t.raw.b t.raw.c) s = .next u ∧ u.status.code = .running ∧ u.regs = t.post)

/-- The source's sample is consistent with exactly addi, mulr and seti (derived: R97, 95_test_vectors.md L1-1). -/
def Obligations.SourceSampleHasThreeCandidates : Prop :=
  Sample.candidates 64 ⟨[3, 2, 1, 1], ⟨9, 2, 1, 2⟩, [3, 2, 2, 1]⟩ = [.addi, .mulr, .seti]

/-- Running out of fuel leaves the core RUNNING; any other verdict stands under more fuel (derived: R132, R134, R195). -/
def Obligations.FuelDoesNotChangeAVerdict : Prop :=
  ∀ (n k : Nat) (s : State),
    ((runFuel n s).1 = .outOfFuel → (runFuel n s).2.status.code = .running) ∧
    ((runFuel n s).1 ≠ .outOfFuel → runFuel (n + k) s = runFuel n s) ∧
    ((runFuel n s).1 = .halted → (runFuel n s).2.status.code = .halted) ∧
    ((runFuel n s).1 = .faulted → (runFuel n s).2.status.code = .fault) ∧
    ((runFuel n s).1 = .suspended → (runFuel n s).2.status.code = .watchHalt) ∧
    (runFuel n s).1 ≠ .stuck

/-- The cycle protocol answers the last newly seen value before the first repeat; on 3,1,4,1,... that is 4 (derived: R217,
90_conflicts.md C3). -/
def Obligations.CycleAnswerIsTheLastNewValue : Prop :=
  (∀ (l rest : List Nat) (v : Nat), l.Nodup → v ∈ l → cycleAnswer [] none (l ++ v :: rest) = l.getLast?) ∧
  (∀ l : List Nat, l.Nodup → cycleAnswer [] none l = none) ∧
  cycleAnswer [] none [3, 1, 4, 1, 5, 9, 1, 4, 1, 5, 9] = some 4

/-- The packed words of IPB, WCFG and STATUS hold their fields at the spec's bit positions (derived: R40, R42, R43). -/
def Obligations.ConfigurationWordsHaveTheirFields : Prop :=
  (∀ r : Ipb, r.word.getLsbD 0 = r.en ∧ (r.word.extractLsb 3 1).toNat = r.idx) ∧
  (∀ r : Wcfg, r.word.getLsbD 0 = r.en ∧ (r.word.extractLsb 3 1).toNat = r.idx) ∧
  (∀ r : Status, (r.word.extractLsb 1 0).toNat = r.code.number ∧ (r.word.extractLsb 4 2).toNat = r.cause.number) ∧
  RunCode.running.number = 0 ∧ RunCode.halted.number = 1 ∧ RunCode.watchHalt.number = 2 ∧ RunCode.fault.number = 3 ∧
  Cause.none.number = 0 ∧ Cause.outOfRangeRegister.number = 1
end

