-- ==== Sys2Proof/Laws/Decode.lean ====
section
/-! SUPPORT. The codes, the mapping and the packed word: each direction of each round trip. -/

namespace Sys2Proof

@[simp] theorem Opcode.ofCode_code (op : Opcode) : Opcode.ofCode op.code = op := by cases op <;> rfl

@[simp] theorem Opcode.code_ofCode (c : Fin 16) : (Opcode.ofCode c).code = c := by revert c; decide

theorem Opcode.ofCode_injective {c d : Fin 16} (h : Opcode.ofCode c = Opcode.ofCode d) : c = d := by
  simpa using congrArg Opcode.code h

@[simp] theorem Opcode.instr_opcode (op : Opcode) (a b c : Nat) : (op.instr a b c).opcode = op := by cases op <;> rfl
@[simp] theorem Opcode.instr_fieldA (op : Opcode) (a b c : Nat) : (op.instr a b c).fieldA = a := by cases op <;> rfl
@[simp] theorem Opcode.instr_fieldB (op : Opcode) (a b c : Nat) : (op.instr a b c).fieldB = b := by cases op <;> rfl
@[simp] theorem Opcode.instr_fieldC (op : Opcode) (a b c : Nat) : (op.instr a b c).fieldC = c := by cases op <;> rfl

@[simp] theorem Instr.opcode_instr (i : Instr) : i.opcode.instr i.fieldA i.fieldB i.fieldC = i := by cases i <;> rfl

theorem Instr.wellFormed_eq (W : Nat) (i : Instr) : i.wellFormed W = fieldsFit W i.fieldA i.fieldB i.fieldC := by
  cases i <;> rfl

@[simp] theorem fieldsFit_iff {W a b c : Nat} : fieldsFit W a b c = true ↔ a < 2 ^ W ∧ b < 2 ^ W ∧ c < 2 ^ W := by
  simp [fieldsFit, and_assoc]

/-- A decoded slot is well formed exactly when the slot is (R80). -/
theorem decode_wellFormed (W : Nat) (m : Mapping) (r : RawInstr) : (decode m r).wellFormed W = r.wellFormed W := by
  simp [Instr.wellFormed_eq, RawInstr.wellFormed, decode]

/-- A bijective MAP reaches every code from some id. -/
theorem Mapping.exists_id_of_bijection {m : Mapping} (h : m.isBijection = true) (c : Fin 16) : ∃ id : Fin 16, m[id] = c := by
  simp only [Mapping.isBijection, List.all_eq_true, List.mem_finRange, true_implies, List.contains_iff_mem] at h
  obtain ⟨k, hk, e⟩ := List.mem_iff_getElem.mp (h c)
  exact ⟨⟨k, by simpa using hk⟩, by simpa using e⟩

theorem Mapping.injective_of_bijection {m : Mapping} (h : m.isBijection = true) :
    Function.Injective fun id : Fin 16 => m[id] :=
  Finite.injective_iff_surjective.mpr (Mapping.exists_id_of_bijection h)

theorem Mapping.isBijection_of_surjective {m : Mapping} (h : ∀ c : Fin 16, ∃ id : Fin 16, m[id] = c) :
    m.isBijection = true := by
  simp only [Mapping.isBijection, List.all_eq_true, List.mem_finRange, true_implies, List.contains_iff_mem]
  intro c
  obtain ⟨id, e⟩ := h c
  exact e ▸ by simp

/-- The id that denotes an opcode is found, and denotes it. -/
theorem Mapping.idOf_spec {m : Mapping} {op : Opcode} {id : Fin 16} (h : m.idOf? op = some id) : m.opcode id = op := by
  simpa using List.find?_some h

theorem Mapping.idOf_exists {m : Mapping} (h : m.isBijection = true) (op : Opcode) : ∃ id, m.idOf? op = some id := by
  obtain ⟨id, e⟩ := Mapping.exists_id_of_bijection h op.code
  refine Option.isSome_iff_exists.mp (List.find?_isSome.mpr ⟨id, List.mem_finRange id, ?_⟩)
  simp [Mapping.opcode, e]

/-- Under a bijective MAP the id found for a slot's opcode is the slot's own (R89). -/
theorem Mapping.idOf_opcode {m : Mapping} (h : m.isBijection = true) (id : Fin 16) : m.idOf? (m.opcode id) = some id := by
  obtain ⟨k, hk⟩ := Mapping.idOf_exists h (m.opcode id)
  have e : m[k] = m[id] := Opcode.ofCode_injective (Mapping.idOf_spec hk)
  rw [hk, Mapping.injective_of_bijection h e]

/-- An encoded instruction decodes to itself (R83, R88). -/
theorem decode_of_encode {m : Mapping} {i : Instr} {r : RawInstr} (h : encode m i = some r) : decode m r = i := by
  obtain ⟨id, hid, rfl⟩ := Option.map_eq_some_iff.mp h
  simp [decode, Mapping.idOf_spec hid]

/-- A decoded slot encodes to itself under a bijective MAP. -/
theorem encode_decode {m : Mapping} (h : m.isBijection = true) (r : RawInstr) : encode m (decode m r) = some r := by
  simp [encode, decode, Mapping.idOf_opcode h]

theorem encode_wellFormed {W : Nat} {m : Mapping} {i : Instr} {r : RawInstr} (h : encode m i = some r) :
    r.wellFormed W = i.wellFormed W := by
  rw [← decode_of_encode h, decode_wellFormed]

/-- The fields of a packed word of W-bit fields (R81). -/
theorem packWord_fields {W : Nat} {r : RawInstr} (h : r.wellFormed W = true) :
    packWord W r / 2 ^ (3 * W) = r.id ∧ packWord W r / 2 ^ (2 * W) % 2 ^ W = r.a ∧
      packWord W r / 2 ^ W % 2 ^ W = r.b ∧ packWord W r % 2 ^ W = r.c := by
  obtain ⟨ha, hb, hc⟩ := fieldsFit_iff.mp h
  have e2 : (2 : Nat) ^ (2 * W) = 2 ^ W * 2 ^ W := by rw [two_mul, pow_add]
  have e3 : (2 : Nat) ^ (3 * W) = 2 ^ W * 2 ^ W * 2 ^ W := by rw [show 3 * W = W + W + W by omega, pow_add, pow_add]
  have hp : 0 < 2 ^ W := Nat.two_pow_pos W
  generalize hN : (2 : Nat) ^ W = N at *
  have hpack : packWord W r = ((r.id * N + r.a) * N + r.b) * N + r.c := by
    simp only [packWord, e2, e3, hN]; ring
  have d1 : packWord W r / N = (r.id * N + r.a) * N + r.b := by
    rw [hpack, Nat.add_comm, Nat.add_mul_div_right _ _ hp, Nat.div_eq_of_lt hc, Nat.zero_add]
  have d2 : packWord W r / (N * N) = r.id * N + r.a := by
    rw [← Nat.div_div_eq_div_mul, d1, Nat.add_comm, Nat.add_mul_div_right _ _ hp, Nat.div_eq_of_lt hb, Nat.zero_add]
  have d3 : packWord W r / (N * N * N) = r.id := by
    rw [← Nat.div_div_eq_div_mul, d2, Nat.add_comm, Nat.add_mul_div_right _ _ hp, Nat.div_eq_of_lt ha, Nat.zero_add]
  rw [e2, e3]
  refine ⟨d3, ?_, ?_, ?_⟩
  · rw [d2, Nat.add_comm, Nat.add_mul_mod_self_right, Nat.mod_eq_of_lt ha]
  · rw [d1, Nat.add_comm, Nat.add_mul_mod_self_right, Nat.mod_eq_of_lt hb]
  · rw [hpack, Nat.add_comm, Nat.add_mul_mod_self_right, Nat.mod_eq_of_lt hc]

/-- Unpacking a packed slot gives the slot back (R81). -/
theorem unpackWord_packWord {W : Nat} {r : RawInstr} (h : r.wellFormed W = true) : unpackWord W (packWord W r) = .ok r := by
  obtain ⟨h1, h2, h3, h4⟩ := packWord_fields h
  have hid : packWord W r / 2 ^ (3 * W) < 16 := by omega
  simp only [unpackWord, hid, ↓reduceDIte, h2, h3, h4]
  congr 2
  exact Fin.ext h1

/-- What an unpacked number was: a packed word of W-bit fields (R81). -/
theorem unpackWord_ok {W w : Nat} {r : RawInstr} (h : unpackWord W w = .ok r) : r.wellFormed W = true ∧ packWord W r = w := by
  unfold unpackWord at h
  split at h
  · next hid =>
    cases h
    have hp : 0 < 2 ^ W := Nat.two_pow_pos W
    refine ⟨fieldsFit_iff.mpr ⟨Nat.mod_lt _ hp, Nat.mod_lt _ hp, Nat.mod_lt _ hp⟩, ?_⟩
    have e2 : (2 : Nat) ^ (2 * W) = 2 ^ W * 2 ^ W := by rw [two_mul, pow_add]
    have e3 : (2 : Nat) ^ (3 * W) = 2 ^ W * 2 ^ W * 2 ^ W := by rw [show 3 * W = W + W + W by omega, pow_add, pow_add]
    simp only [packWord, e2, e3, ← Nat.div_div_eq_div_mul]
    generalize 2 ^ W = N
    have a1 := Nat.div_add_mod w N
    have a2 := Nat.div_add_mod (w / N) N
    have a3 := Nat.div_add_mod (w / N / N) N
    calc _ = N * (N * (N * (w / N / N / N) + w / N / N % N) + w / N % N) + w % N := by ring
      _ = w := by rw [a3, a2, a1]
  · cases h

end Sys2Proof
end

