-- ==== Sys2Proof/Laws/State.lean ====
section
/-! SUPPORT. What each update of the state does to each field. -/

namespace Sys2Proof.Machine

variable (s : State)

@[simp] theorem State.setReg_width (i : Nat) (v : Nat) : (s.setReg i v).width = s.width := rfl
@[simp] theorem State.setReg_regs (i : Nat) (v : Nat) : (s.setReg i v).regs = s.regs.set i v := rfl
@[simp] theorem State.setReg_pc (i : Nat) (v : Nat) : (s.setReg i v).pc = s.pc := rfl
@[simp] theorem State.setReg_program (i : Nat) (v : Nat) : (s.setReg i v).program = s.program := rfl
@[simp] theorem State.setReg_ipb (i : Nat) (v : Nat) : (s.setReg i v).ipb = s.ipb := rfl
@[simp] theorem State.setReg_map (i : Nat) (v : Nat) : (s.setReg i v).map = s.map := rfl
@[simp] theorem State.setReg_wcfg (i : Nat) (v : Nat) : (s.setReg i v).wcfg = s.wcfg := rfl
@[simp] theorem State.setReg_status (i : Nat) (v : Nat) : (s.setReg i v).status = s.status := rfl
@[simp] theorem State.setReg_finfo (i : Nat) (v : Nat) : (s.setReg i v).finfo = s.finfo := rfl
@[simp] theorem State.setReg_suspension (i : Nat) (v : Nat) : (s.setReg i v).suspension = s.suspension := rfl

@[simp] theorem State.setPc_width (n : Nat) : (s.setPc n).width = s.width := rfl
@[simp] theorem State.setPc_regs (n : Nat) : (s.setPc n).regs = s.regs := rfl
@[simp] theorem State.setPc_pc (n : Nat) : (s.setPc n).pc = n := rfl
@[simp] theorem State.setPc_program (n : Nat) : (s.setPc n).program = s.program := rfl
@[simp] theorem State.setPc_ipb (n : Nat) : (s.setPc n).ipb = s.ipb := rfl
@[simp] theorem State.setPc_map (n : Nat) : (s.setPc n).map = s.map := rfl
@[simp] theorem State.setPc_wcfg (n : Nat) : (s.setPc n).wcfg = s.wcfg := rfl
@[simp] theorem State.setPc_status (n : Nat) : (s.setPc n).status = s.status := rfl
@[simp] theorem State.setPc_finfo (n : Nat) : (s.setPc n).finfo = s.finfo := rfl
@[simp] theorem State.setPc_suspension (n : Nat) : (s.setPc n).suspension = s.suspension := rfl

@[simp] theorem State.raise_width (e : Cause) (f : FieldName) (v : Nat) : (s.raise e f v).width = s.width := rfl
@[simp] theorem State.raise_regs (e : Cause) (f : FieldName) (v : Nat) : (s.raise e f v).regs = s.regs := rfl
@[simp] theorem State.raise_pc (e : Cause) (f : FieldName) (v : Nat) : (s.raise e f v).pc = s.pc := rfl
@[simp] theorem State.raise_program (e : Cause) (f : FieldName) (v : Nat) : (s.raise e f v).program = s.program := rfl
@[simp] theorem State.raise_ipb (e : Cause) (f : FieldName) (v : Nat) : (s.raise e f v).ipb = s.ipb := rfl
@[simp] theorem State.raise_map (e : Cause) (f : FieldName) (v : Nat) : (s.raise e f v).map = s.map := rfl
@[simp] theorem State.raise_wcfg (e : Cause) (f : FieldName) (v : Nat) : (s.raise e f v).wcfg = s.wcfg := rfl
@[simp] theorem State.raise_status (e : Cause) (f : FieldName) (v : Nat) : (s.raise e f v).status = ⟨.fault, e⟩ := rfl
@[simp] theorem State.raise_finfo (e : Cause) (f : FieldName) (v : Nat) : (s.raise e f v).finfo = ⟨s.pc, f, v⟩ := rfl
@[simp] theorem State.raise_suspension (e : Cause) (f : FieldName) (v : Nat) : (s.raise e f v).suspension = s.suspension := rfl

@[simp] theorem State.halt_width : (s.halt).width = s.width := rfl
@[simp] theorem State.halt_regs : (s.halt).regs = s.regs := rfl
@[simp] theorem State.halt_pc : (s.halt).pc = s.pc := rfl
@[simp] theorem State.halt_program : (s.halt).program = s.program := rfl
@[simp] theorem State.halt_ipb : (s.halt).ipb = s.ipb := rfl
@[simp] theorem State.halt_map : (s.halt).map = s.map := rfl
@[simp] theorem State.halt_wcfg : (s.halt).wcfg = s.wcfg := rfl
@[simp] theorem State.halt_status : (s.halt).status = { s.status with code := .halted } := rfl
@[simp] theorem State.halt_finfo : (s.halt).finfo = s.finfo := rfl
@[simp] theorem State.halt_suspension : (s.halt).suspension = s.suspension := rfl

@[simp] theorem State.suspend_width : (s.suspend).width = s.width := rfl
@[simp] theorem State.suspend_regs : (s.suspend).regs = s.regs := rfl
@[simp] theorem State.suspend_pc : (s.suspend).pc = s.pc := rfl
@[simp] theorem State.suspend_program : (s.suspend).program = s.program := rfl
@[simp] theorem State.suspend_ipb : (s.suspend).ipb = s.ipb := rfl
@[simp] theorem State.suspend_map : (s.suspend).map = s.map := rfl
@[simp] theorem State.suspend_wcfg : (s.suspend).wcfg = s.wcfg := rfl
@[simp] theorem State.suspend_status : (s.suspend).status = { s.status with code := .watchHalt } := rfl
@[simp] theorem State.suspend_finfo : (s.suspend).finfo = s.finfo := rfl
@[simp] theorem State.suspend_suspension : (s.suspend).suspension = some ⟨s.pc, s.regs⟩ := rfl


@[simp] theorem State.setReg_binding (i : Nat) (v : Nat) : (s.setReg i v).binding = s.binding := rfl
@[simp] theorem State.setPc_binding (n : Nat) : (s.setPc n).binding = s.binding := rfl
@[simp] theorem State.setReg_watched (i : Nat) (v : Nat) : (s.setReg i v).watched = s.watched := rfl
@[simp] theorem State.setPc_watched (n : Nat) : (s.setPc n).watched = s.watched := rfl
@[simp] theorem State.setPc_reg (n i : Nat) : (s.setPc n).reg i = s.reg i := rfl
@[simp] theorem State.setPc_nreg (n : Nat) : (s.setPc n).nreg = s.nreg := rfl
@[simp] theorem State.setReg_nreg (i : Nat) (v : Nat) : (s.setReg i v).nreg = s.nreg := by simp [State.nreg]

end Sys2Proof.Machine
end

