-- ==== Sys2Proof/Laws/Ops.lean ====
section
/-! SUPPORT. What the shared operations do: register reads after writes, the mirror, the next pc, the common step, and `exec` and
`step` by cases. -/

namespace Sys2Proof.Machine

variable {s t : State}

theorem State.reg_setReg_same {i : Nat} (h : i < s.nreg) (v : Nat) : (s.setReg i v).reg i = v := by
  simp only [State.nreg] at h
  simp [State.reg, readReg, h]

theorem State.reg_setReg_other {i j : Nat} (h : j ≠ i) (v : Nat) : (s.setReg i v).reg j = s.reg j := by
  simp [State.reg, readReg, List.getElem?_set_ne (Ne.symm h)]

theorem State.mirror_of_none (h : s.binding = none) : s.mirror = s := by simp [State.mirror, h]

theorem State.mirror_of_some {p : Nat} (h : s.binding = some p) : s.mirror = s.setReg p s.pc := by simp [State.mirror, h]

theorem State.advance_of_none (h : s.binding = none) : s.advance = s.setPc (s.pc + 1) := by simp [State.advance, h]

theorem State.advance_of_some {p : Nat} (h : s.binding = some p) : s.advance = s.setPc (s.reg p + 1) := by
  simp [State.advance, h]

@[simp] theorem State.mirror_nreg : s.mirror.nreg = s.nreg := by
  cases h : s.binding <;> simp [State.mirror, h]

@[simp] theorem State.mirror_binding : s.mirror.binding = s.binding := by
  cases h : s.binding <;> simp [State.mirror, h]

@[simp] theorem State.mirror_pc : s.mirror.pc = s.pc := by
  cases h : s.binding <;> simp [State.mirror, h]

/-- After the mirror, a register of the file reads as the operand multiplexer sees it (R115, R117). -/
theorem State.mirror_reg {i : Nat} (h : i < s.nreg) : s.mirror.reg i = s.source i := by
  cases hb : s.binding with
  | none => simp [State.mirror, State.source, hb]
  | some p =>
    simp only [State.mirror_of_some hb, State.source, hb, Option.some.injEq]
    split
    · next e => subst e; exact State.reg_setReg_same h _
    · next e => exact State.reg_setReg_other (fun hh => e hh.symm) _

theorem readReg_mirror {i : Nat} (h : i < s.nreg) : readReg s.mirror.regs i = s.source i := State.mirror_reg h

/-- A passed range check has every register-index field below NREG (R114). -/
theorem Form.inRange_of_check {f : Form} {n : Nat} (h : f.firstOutOfRange n = none) :
    ∀ p ∈ f.registerFields, p.2 < n := by
  intro p hp
  have := List.find?_eq_none.mp h p hp
  simpa using this

theorem Form.check_of_inRange {f : Form} {n : Nat} (h : ∀ p ∈ f.registerFields, p.2 < n) :
    f.firstOutOfRange n = none := by
  refine List.find?_eq_none.mpr fun p hp => ?_
  simpa using h p hp

theorem Form.dest_mem (f : Form) : (FieldName.c, f.c) ∈ f.registerFields := by simp [Form.registerFields]

/-- The writeback and the next pc complete a step: everything R117, R119 and R129 say of it. -/
theorem State.complete_spec {c : Nat} {v : Nat} (hc : c < s.nreg) :
    Completed s ((s.mirror.setReg c v).advance) c v := by
  cases hb : s.binding with
  | none =>
    have e : (s.mirror.setReg c v).advance = (s.setReg c v).setPc (s.pc + 1) := by
      rw [State.mirror_of_none hb, State.advance_of_none (by simpa using hb)]; rfl
    refine e ▸ ⟨?_, fun i hi hlt => ?_, ?_, ?_, rfl, rfl, rfl, rfl, rfl, rfl, rfl, rfl⟩
    · simpa using State.reg_setReg_same hc v
    · simpa [State.source, hb] using State.reg_setReg_other hi v
    · simp
    · simp [nextPc, hb]
  | some p =>
    have e : (s.mirror.setReg c v).advance =
        ((s.setReg p s.pc).setReg c v).setPc (((s.setReg p s.pc).setReg c v).reg p + 1) := by
      rw [State.mirror_of_some hb, State.advance_of_some (by simpa using hb)]
    refine e ▸ ⟨?_, fun i hi hlt => ?_, ?_, ?_, rfl, rfl, rfl, rfl, rfl, rfl, rfl, rfl⟩
    · simpa using State.reg_setReg_same (s := s.setReg p s.pc) (by simpa using hc) v
    · rw [State.setPc_reg, State.reg_setReg_other hi]
      rw [← State.mirror_of_some hb]; exact State.mirror_reg hlt
    · simp
    · simp [nextPc, hb]

/-- The common step with a failing range check raises OutOfRangeRegister and changes nothing else (R114, R191). -/
theorem State.commonStep_faults {f : Form} {r : List Nat → Nat} {field : FieldName} {v : Nat}
    (h : f.firstOutOfRange s.nreg = some (field, v)) : s.commonStep f r = .next (faulted s field v) := by
  simp [State.commonStep, h, State.raise, faulted]

/-- The common step with a passing range check completes (R122). -/
theorem State.commonStep_completes {f : Form} {r : List Nat → Nat} (h : f.firstOutOfRange s.nreg = none) :
    ∃ t, s.commonStep f r = .next t ∧ Completed s t f.c (r s.mirror.regs) :=
  ⟨_, by simp [State.commonStep, h], State.complete_spec (Form.inRange_of_check h _ f.dest_mem)⟩

/-- Every meaning is the common step over the instruction's form with the result `evaluate` gives (R110, R118). -/
theorem exec_eq_commonStep (i : Instr) (s : State) :
    exec i s = s.commonStep (instrForm i) (fun x => evaluate s.width x i) := by
  cases i <;> rfl

/-- The table of R192 lists the register-index fields that the modes of R84 give. -/
theorem checkedFields_eq (i : Instr) : checkedFields i = (instrForm i).registerFields := by cases i <;> rfl

@[simp] theorem instrForm_c (i : Instr) : (instrForm i).c = i.fieldC := by cases i <;> rfl

theorem mirrored_eq (s : State) : s.mirrored = s.mirror.regs := by
  cases h : s.binding <;> simp [State.mirrored, State.mirror, h]

/-- The watch-halt test, over the table of R192 (R211, R212). -/
theorem watchFires_iff (s : State) (i : Instr) :
    s.watchFires i = true ↔ ∃ w ∈ s.watched, ∃ p ∈ checkedFields i, p.2 = w := by
  rw [checkedFields_eq]
  cases h : s.watched <;> simp [State.watchFires, h, Form.touches]

/-- An executed instruction faults at its first field out of range, or completes (R122, R197). -/
theorem exec_cases (i : Instr) (s : State) :
    (∃ field v, (instrForm i).firstOutOfRange s.nreg = some (field, v) ∧ exec i s = .next (faulted s field v)) ∨
    ((instrForm i).firstOutOfRange s.nreg = none ∧
      ∃ t, exec i s = .next t ∧ Completed s t (instrForm i).c (evaluate s.width s.mirror.regs i)) := by
  rw [exec_eq_commonStep]
  cases h : (instrForm i).firstOutOfRange s.nreg with
  | none => exact .inr ⟨rfl, State.commonStep_completes h⟩
  | some p => exact .inl ⟨p.1, p.2, rfl, State.commonStep_faults h⟩

/-- The status and the pc that let a step of the core go on to a given phase (R110, R190). -/
theorem phase_cases (s : State) :
    (s.status.code = .halted ∧ s.phase = .stuck .halted) ∨
    (s.status.code = .fault ∧ s.phase = .stuck .faulted) ∨
    (s.status.code = .watchHalt ∧ s.phase = .stuck .suspended) ∨
    (s.status.code = .running ∧ s.program.length ≤ s.pc ∧ s.phase = .ended) ∨
    (s.status.code = .running ∧ ∃ r, s.program[s.pc]? = some r ∧
      s.phase = if s.watchFires (decode s.map r) then .watched else .run (decode s.map r)) := by
  cases hc : s.status.code <;> simp only [State.phase, hc, reduceCtorEq, false_and, true_and, false_or, or_false]
  by_cases h : s.pc < s.program.length
  · exact .inr ⟨s.program[s.pc], List.getElem?_eq_getElem h, by simp [h]⟩
  · exact .inl ⟨by omega, by simp [h]⟩

/-- A step at which the watch-halt test fires answers the suspended state (R212). -/
theorem step_of_watchFires {r : RawInstr} (hr : s.status.code = .running) (hf : s.program[s.pc]? = some r)
    (h : s.watchFires (decode s.map r) = true) : step s = .next s.suspend := by
  obtain ⟨hl, rfl⟩ := List.getElem?_eq_some_iff.mp hf
  simp [step, State.phase, hr, hl, h]

/-- A step at which it does not fire executes the decoded instruction (R110). -/
theorem step_of_not_watchFires {r : RawInstr} (hr : s.status.code = .running) (hf : s.program[s.pc]? = some r)
    (h : s.watchFires (decode s.map r) = false) : step s = exec (decode s.map r) s := by
  obtain ⟨hl, rfl⟩ := List.getElem?_eq_some_iff.mp hf
  simp [step, State.phase, hr, hl, h]

/-- Everything a step can do when it answers a next state (R190, R197). -/
theorem step_cases (h : step s = .next t) :
    s.status.code = .running ∧
    ((s.program.length ≤ s.pc ∧ t = s.halt) ∨
     ∃ r, s.program[s.pc]? = some r ∧
      ((s.watchFires (decode s.map r) = true ∧ t = s.suspend) ∨
       (s.watchFires (decode s.map r) = false ∧ exec (decode s.map r) s = .next t))) := by
  rcases phase_cases s with ⟨_, e⟩ | ⟨_, e⟩ | ⟨_, e⟩ | ⟨hr, hl, e⟩ | ⟨hr, r, hf, e⟩
  · simp [step, e] at h
  · simp [step, e] at h
  · simp [step, e] at h
  · simp only [step, e, Host.Outcome.next.injEq] at h
    exact ⟨hr, .inl ⟨hl, h.symm⟩⟩
  · refine ⟨hr, .inr ⟨r, hf, ?_⟩⟩
    cases hw : s.watchFires (decode s.map r)
    · exact .inr ⟨rfl, by simpa [step, e, hw] using h⟩
    · exact .inl ⟨rfl, by simpa [step, e, hw, eq_comm] using h⟩

end Sys2Proof.Machine
end

