-- ==== Sys2Proof/Laws/HostControl.lean ====
section
/-! SUPPORT. What the host's operations answer, and a run bounded by fuel by its status. -/

namespace Sys2Proof.Machine

variable {s t : State}

theorem hostWriteReg_next_iff {i v : Nat} :
    hostWriteReg i v s = .next t ↔ s.status.code = .watchHalt ∧ i < s.nreg ∧ v < 2 ^ s.width ∧ t = s.setReg i v := by
  simp only [hostWriteReg]
  split_ifs <;> simp_all [eq_comm]

theorem hostSetPc_next_iff {n : Nat} : hostSetPc n s = .next t ↔ s.status.code = .watchHalt ∧ t = s.setPc n := by
  simp only [hostSetPc]
  split_ifs <;> simp_all [eq_comm]

theorem hostResume_next_iff :
    hostResume s = .next t ↔ s.status.code = .watchHalt ∧ t = { s with status := { s.status with code := .running } } := by
  simp only [hostResume]
  split_ifs <;> simp_all [eq_comm]

/-- Where a fault waits, the resume of R197's remark raises it (R191, R197). -/
theorem hostResumeRaising_raises {field : FieldName} {v : Nat} (hs : s.status.code = .watchHalt)
    (h : s.waitingFault = some (field, v)) : hostResumeRaising s = .next (faulted s field v) := by
  have h' : State.waitingFault { s with status := { s.status with code := .running } } = some (field, v) := h
  simp [hostResumeRaising, hostResume, hs, andThen, h', State.raise, faulted]

/-- Where none waits, it is the resume of R215 and a step. -/
theorem hostResumeRaising_steps (h : s.waitingFault = none) : hostResumeRaising s = andThen (hostResume s) step := by
  have h' : State.waitingFault { s with status := { s.status with code := .running } } = none := h
  by_cases hs : s.status.code = .watchHalt <;> simp [hostResumeRaising, hostResume, hs, andThen, h']

theorem andThen_next_iff {o : Host.Outcome State Fault Refusal} {f : State → Host.Outcome State Fault Refusal} :
    andThen o f = .next t ↔ ∃ u, o = .next u ∧ f u = .next t := by
  cases o <;> simp [andThen]

/-- A run from a state that is not RUNNING ends at once, with the verdict of that state. -/
theorem runFuel_of_not_running {n : Nat} (h : s.status.code ≠ .running) : runFuel n s = runFuel 0 s := by
  cases n <;> cases hc : s.status.code <;> simp_all [runFuel]

/-- A run from a RUNNING state goes on from the next state (R132). -/
theorem runFuel_succ {n : Nat} (h : s.status.code = .running) (e : step s = .next t) : runFuel (n + 1) s = runFuel n t := by
  simp [runFuel, h, e]

end Sys2Proof.Machine
end

