-- ==== Sys2Proof/Laws/Launch.lean ====
section
/-! SUPPORT. The loader and the launch: when they succeed and what they make. -/

namespace Sys2Proof.Machine

/-- A tuple loads exactly when its id and its fields are in range, and then keeps them (R94, R232). -/
theorem load_ok_iff {W : Nat} {t : Tuple} {r : RawInstr} :
    t.load W = .ok r ↔ t.id = r.id ∧ t.a = r.a ∧ t.b = r.b ∧ t.c = r.c ∧ t.a < 2 ^ W ∧ t.b < 2 ^ W ∧ t.c < 2 ^ W := by
  obtain ⟨id, a, b, c⟩ := r
  obtain ⟨tid, ta, tb, tc⟩ := t
  simp only [Tuple.load]
  constructor
  · intro h
    split at h <;> [split at h <;> [split at h <;> [split at h; skip]; skip]; skip] <;> cases h
    simp_all
  · rintro ⟨h, rfl, rfl, rfl, ha, hb, hc⟩
    have hid : tid < 16 := h ▸ id.isLt
    simp only [hid, ha, hb, hc, ↓reduceDIte, ↓reduceIte]
    congr 2
    exact Fin.ext h

/-- A tuple's load fails on a wide id before anything else (R94). -/
theorem load_wideId {W : Nat} {t : Tuple} (h : 16 ≤ t.id) : t.load W = .error (.idOutOfRange t.id) := by
  simp [Tuple.load, show ¬ t.id < 16 by omega]

/-- A program loads when every tuple does, slot for slot (R231). -/
theorem loadProgram_ok_iff {W : Nat} {ts : List Tuple} {rs : List RawInstr} :
    ∀ {k : Nat}, loadProgram W k ts = .ok rs ↔ List.Forall₂ (fun t r => t.load W = .ok r) ts rs := by
  induction ts generalizing rs with
  | nil => intro k; cases rs <;> simp [loadProgram]
  | cons t ts ih =>
    intro k
    simp only [loadProgram]
    cases ht : t.load W with
    | error e => cases rs <;> simp [ht]
    | ok r =>
      cases h : loadProgram W (k + 1) ts with
      | error e =>
        cases rs with
        | nil => simp
        | cons r' rs' => simp [ht, ← ih (k := k + 1), h]
      | ok rs0 =>
        cases rs with
        | nil => simp
        | cons r' rs' => simp [ht, ← ih (k := k + 1), h]

/-- The first bad tuple names the refusal with its index (R94). -/
theorem loadProgram_error {W : Nat} {ts : List Tuple} {n : Nat} {t : Tuple} {e : DecodeError} :
    ∀ {k : Nat}, ts[n]? = some t → t.load W = .error e → (∀ j u, j < n → ts[j]? = some u → ∃ r, u.load W = .ok r) →
      loadProgram W k ts = .error (k + n, e) := by
  induction ts generalizing n with
  | nil => intro k h; simp at h
  | cons u us ih =>
    intro k h he hb
    cases n with
    | zero =>
      simp only [List.getElem?_cons_zero, Option.some.injEq] at h
      subst h
      simp [loadProgram, he]
    | succ n =>
      obtain ⟨r, hr⟩ := hb 0 u (by omega) (by simp)
      have := ih (n := n) (k := k + 1) (by simpa using h) he fun j v hj hv => hb (j + 1) v (by omega) (by simpa using hv)
      simp only [loadProgram, hr, this]
      congr 2
      omega

/-- A launch succeeds exactly when no check fails, and what it makes is the start state (R231, R232). -/
theorem launch_next_iff {a : LaunchArgs} {f : Finfo} {s : State} :
    launch a f = .next s ↔
      a.refusal? = none ∧ ∃ rs, loadProgram a.width 0 a.program = .ok rs ∧ rs.length ≤ 2 ^ a.width ∧ s = a.start rs f := by
  unfold launch
  cases a.refusal? with
  | some r => simp
  | none =>
    cases h : loadProgram a.width 0 a.program with
    | error e => obtain ⟨k, e⟩ := e; simp
    | ok rs =>
      by_cases hl : 2 ^ a.width < rs.length
      · simp [hl]
      · simp [hl, Nat.not_lt.mp hl, eq_comm]

/-- The checks outside the program, as the table of R232 lists them. -/
theorem refusal_none_iff {a : LaunchArgs} :
    a.refusal? = none ↔ a.width ≠ 0 ∧ a.nreg ∈ Config.registerCounts ∧ a.r0.length = a.nreg ∧ (∀ v ∈ a.r0, v < 2 ^ a.width) ∧
      (a.ipb.en = true → a.ipb.idx < a.nreg) ∧ (a.wcfg.en = true → a.wcfg.idx < a.nreg) ∧ a.map.isBijection = true := by
  simp only [LaunchArgs.refusal?]
  split_ifs <;> simp_all

end Sys2Proof.Machine
end

