-- ==== Sys2Proof/Laws/PerInstr.lean ====
section
/-! SUPPORT. The per-instruction family Encoding: every instruction survives its slot under every bijective MAP (R83, R88, R89), with
its fields kept, those it ignores among them (R80, R87). -/

namespace Sys2Proof.Laws.Encoding

/-- Under a bijective MAP an instruction has a slot, the slot decodes to it, and the slot is as well formed as it is. -/
def Statement (i : Instr) : Prop :=
  ∀ (m : Mapping), m.isBijection = true →
    ∃ r, encode m i = some r ∧ decode m r = i ∧ ∀ W, r.wellFormed W = i.wellFormed W

theorem of_bijection (i : Instr) : Statement i := by
  intro m hm
  obtain ⟨id, hid⟩ := Mapping.idOf_exists hm i.opcode
  have he : encode m i = some ⟨id, i.fieldA, i.fieldB, i.fieldC⟩ := by simp [encode, hid]
  exact ⟨_, he, decode_of_encode he, fun W => encode_wellFormed he⟩

theorem addr (a b c : Nat) : Statement (.addr a b c) := of_bijection _
theorem addi (a b c : Nat) : Statement (.addi a b c) := of_bijection _
theorem mulr (a b c : Nat) : Statement (.mulr a b c) := of_bijection _
theorem muli (a b c : Nat) : Statement (.muli a b c) := of_bijection _
theorem banr (a b c : Nat) : Statement (.banr a b c) := of_bijection _
theorem bani (a b c : Nat) : Statement (.bani a b c) := of_bijection _
theorem borr (a b c : Nat) : Statement (.borr a b c) := of_bijection _
theorem bori (a b c : Nat) : Statement (.bori a b c) := of_bijection _
theorem setr (a b c : Nat) : Statement (.setr a b c) := of_bijection _
theorem seti (a b c : Nat) : Statement (.seti a b c) := of_bijection _
theorem gtrr (a b c : Nat) : Statement (.gtrr a b c) := of_bijection _
theorem gtri (a b c : Nat) : Statement (.gtri a b c) := of_bijection _
theorem gtir (a b c : Nat) : Statement (.gtir a b c) := of_bijection _
theorem eqrr (a b c : Nat) : Statement (.eqrr a b c) := of_bijection _
theorem eqri (a b c : Nat) : Statement (.eqri a b c) := of_bijection _
theorem eqir (a b c : Nat) : Statement (.eqir a b c) := of_bijection _

end Sys2Proof.Laws.Encoding
end

