-- ==== Sys2Proof/Laws/Results.lean ====
section
/-! SUPPORT. The result words stay words, and what a completed step means for the whole register file. -/

namespace Sys2Proof.Machine

variable {s t : State}

theorem trunc_lt (W v : Nat) : trunc W v < 2 ^ W := Nat.mod_lt _ (Nat.two_pow_pos W)

theorem boolWord_lt {W : Nat} (h : 1 ≤ W) (c : Bool) : boolWord c < 2 ^ W := by
  have : 2 ^ 1 ≤ 2 ^ W := Nat.pow_le_pow_right (by omega) h
  cases c <;> (simp [boolWord]; try omega)

theorem readReg_lt {W i : Nat} {x : List Nat} (h : ∀ v ∈ x, v < 2 ^ W) : readReg x i < 2 ^ W := by
  unfold readReg
  by_cases hi : i < x.length
  · simpa [List.getD_eq_getElem?_getD, hi] using h _ (List.getElem_mem hi)
  · simp [List.getD_eq_getElem?_getD, hi]

theorem andUnit_lt {W a b : Nat} (h : a < 2 ^ W) : andUnit a b < 2 ^ W :=
  lt_of_le_of_lt Nat.and_le_left h

theorem orUnit_lt {W a b : Nat} (ha : a < 2 ^ W) (hb : b < 2 ^ W) : orUnit a b < 2 ^ W := Nat.or_lt_two_pow ha hb

/-- A well-formed instruction over a file of W-bit words gives a W-bit word (R118, R123). -/
theorem evaluate_lt {W : Nat} {x : List Nat} {i : Instr} (hW : 1 ≤ W) (hx : ∀ v ∈ x, v < 2 ^ W)
    (hi : i.wellFormed W = true) : evaluate W x i < 2 ^ W := by
  rw [Instr.wellFormed_eq, fieldsFit_iff] at hi
  obtain ⟨ha, hb, -⟩ := hi
  cases i <;>
    first
    | exact trunc_lt _ _
    | exact andUnit_lt (readReg_lt hx)
    | exact orUnit_lt (readReg_lt hx) (readReg_lt hx)
    | exact orUnit_lt (readReg_lt hx) hb
    | exact readReg_lt hx
    | exact boolWord_lt hW _
    | exact ha

/-- The mirrored file holds W-bit words when the pc is one (R117). -/
theorem State.mirror_registersFit (h : s.RegistersFit) (hpc : s.pc < 2 ^ s.width) : ∀ v ∈ s.mirror.regs, v < 2 ^ s.width := by
  cases hb : s.binding with
  | none => rw [State.mirror_of_none hb]; exact h
  | some p =>
    rw [State.mirror_of_some hb]
    intro v hv
    rcases List.mem_or_eq_of_mem_set hv with hv | rfl
    · exact h v hv
    · exact hpc

/-- A register file is made of its reads (R9). -/
theorem State.mem_regs_iff {v : Nat} : v ∈ s.regs ↔ ∃ i, i < s.nreg ∧ s.reg i = v := by
  simp only [List.mem_iff_getElem, State.nreg, State.reg, readReg]
  constructor
  · rintro ⟨i, hi, rfl⟩; exact ⟨i, hi, by simp [hi]⟩
  · rintro ⟨i, hi, rfl⟩; exact ⟨i, hi, by simp [hi]⟩

/-- A completed step keeps the registers words when its result and the pc are words (R33). -/
theorem Completed.registersFit {c : Nat} {v : Nat} (h : Completed s t c v) (hs : s.RegistersFit) (hv : v < 2 ^ s.width)
    (hpc : s.pc < 2 ^ s.width) : t.RegistersFit := by
  intro u hu
  obtain ⟨i, hi, rfl⟩ := State.mem_regs_iff.mp hu
  rw [h.width]
  by_cases hc : i = c
  · subst hc; rw [h.destination]; exact hv
  · rw [h.length] at hi
    rw [h.others i hc hi, State.source]
    split
    · exact hpc
    · exact hs _ (State.mem_regs_iff.mpr ⟨i, hi, rfl⟩)

theorem Completed.binding {c : Nat} {v : Nat} (h : Completed s t c v) : t.binding = s.binding := by
  simp [State.binding, h.ipb]

theorem Completed.watched {c : Nat} {v : Nat} (h : Completed s t c v) : t.watched = s.watched := by
  simp [State.watched, h.wcfg]

/-- A completed step keeps the configuration legal (R40 to R42, R201). -/
theorem Completed.configurationLegal {c : Nat} {v : Nat} (h : Completed s t c v) (hs : s.ConfigurationLegal) :
    t.ConfigurationLegal := by
  simpa only [State.ConfigurationLegal, h.width, h.length, h.binding, h.watched, h.map] using hs

/-- A completed step keeps the program (R63). -/
theorem Completed.programFits {c : Nat} {v : Nat} (h : Completed s t c v) (hs : s.ProgramFits) : t.ProgramFits := by
  simpa only [State.ProgramFits, h.width, h.program] using hs

end Sys2Proof.Machine
end

