-- ==== Sys2Proof/Tests/Slice0.lean ====
section
/-! SUPPORT. Small tests, one step each. Expected results are the spec's own vectors (95_test_vectors.md, named V, S, W, M, LA, P) or its
rules' examples, never the model's answers. The witness theorems show that the hypotheses of the statements can be met. -/

namespace Sys2Proof.Tests

open Sys2Proof.Machine

/-- The largest 64-bit word, the vectors' MAX. -/
def max : Nat := 2 ^ 64 - 1

/-- A running state of the given registers, without a binding, a watch or a program (the vectors' default setting, W = 64). -/
def file (x : List Nat) : State := { State.reset with regs := x }

/-- The same with the ip binding on register `p`. -/
def bound (p : Fin 8) (x : List Nat) : State := { file x with ipb := ⟨true, p⟩ }

/-- The same with the watch-halt policy on register `w`. -/
def watching (w : Fin 8) (x : List Nat) : State := { file x with wcfg := ⟨true, w⟩ }

/-- The state with a program and the pc at one of its instructions. -/
def at_ (pc : Nat) (program : List RawInstr) (s : State) : State := { s with program := program, pc := pc }

/-- The next state, if the outcome is one. -/
def next? : Host.Outcome State Fault Refusal → Option State
  | .next s => some s
  | _ => none

/-- Registers and pc of the next state. -/
def regsPc (o : Host.Outcome State Fault Refusal) : Option (List Nat × Nat) := (next? o).map fun s => (s.regs, s.pc)

/-- STATUS, the fault record, registers and pc of the next state. -/
def verdict (o : Host.Outcome State Fault Refusal) : Option (Status × Finfo × List Nat × Nat) :=
  (next? o).map fun s => (s.status, s.finfo, s.regs, s.pc)

/-- The refusal, if the outcome is one. -/
def refusal? : Host.Outcome State Fault Refusal → Option Refusal
  | .refused r => some r
  | _ => none

/-- FAULT OutOfRangeRegister(pc, field, value) with registers and pc as they were. -/
def faultAt (pc : Nat) (f : FieldName) (v : Nat) (x : List Nat) : Option (Status × Finfo × List Nat × Nat) :=
  some (⟨.fault, .outOfRangeRegister⟩, ⟨pc, f, v⟩, x, pc)

/-! Well-formedness: one ill-formed term for each check, and the widest well-formed one (R80). -/

theorem test_wellFormed_refuses_wide_fields :
    (Instr.addr (2 ^ 64) 0 0).wellFormed 64 = false ∧ (Instr.setr 0 (2 ^ 64) 0).wellFormed 64 = false ∧
    (Instr.eqir 0 0 (2 ^ 64)).wellFormed 64 = false ∧ (Instr.seti max max max).wellFormed 64 = true := by decide

/-! Decoding. The words are written out by R81: ID, then A, B and C as 16 hex digits each. Those of P1 to P6 are the spec's. -/

theorem test_decode_arith :
    decodeWord 64 .identity 0x0000000000000000500000000000000020000000000000005 = .ok (.addr 5 2 5) ∧
    decodeWord 64 .identity 0x1000000000000000200000000000000640000000000000002 = .ok (.addi 2 100 2) ∧
    decodeWord 64 .identity 0x2000000000000000000000000000000010000000000000002 = .ok (.mulr 0 1 2) ∧
    decodeWord 64 .identity 0x3000000000000000100000000000000070000000000000003 = .ok (.muli 1 7 3) := by decide

theorem test_decode_bitwise :
    decodeWord 64 .identity 0x4000000000000000000000000000000010000000000000002 = .ok (.banr 0 1 2) ∧
    decodeWord 64 .identity 0x50000000000000002000000000000000f0000000000000003 = .ok (.bani 2 15 3) ∧
    decodeWord 64 .identity 0x6000000000000000300000000000000010000000000000001 = .ok (.borr 3 1 1) ∧
    decodeWord 64 .identity 0x7000000000000000000000000000000060000000000000001 = .ok (.bori 0 6 1) := by decide

theorem test_decode_assign :
    decodeWord 64 .identity 0x8000000000000000000000000000000630000000000000003 = .ok (.setr 0 99 3) ∧
    decodeWord 64 .identity 0x9000000000000000700000000000000000000000000000000 = .ok (.seti 7 0 0) := by decide

theorem test_decode_compare :
    decodeWord 64 .identity 0xa000000000000000000000000000000010000000000000002 = .ok (.gtrr 0 1 2) ∧
    decodeWord 64 .identity 0xb000000000000000200000000000000860000000000000000 = .ok (.gtri 2 134 0) ∧
    decodeWord 64 .identity 0xc000000000000000300000000000000010000000000000000 = .ok (.gtir 3 1 0) ∧
    decodeWord 64 .identity 0xd000000000000000300000000000000000000000000000003 = .ok (.eqrr 3 0 3) ∧
    decodeWord 64 .identity 0xe000000000000000100000000000000000000000000000002 = .ok (.eqri 1 0 2) ∧
    decodeWord 64 .identity 0xf000000000000000900000000000000010000000000000002 = .ok (.eqir 9 1 2) := by decide

/-- The bit positions do not depend on W = 64: at W = 3 the word of (9, 2, 1, 2) is 1001 010 001 010 (R81). -/
theorem test_decode_other_width : decodeWord 3 .identity 0b1001010001010 = .ok (.seti 2 1 2) := by decide

/-- A number with a bit above the packed word is refused (log 16); so is a raw id of 16 (R94, M4). -/
theorem test_decode_refuses :
    decodeWord 64 .identity (2 ^ 196) = .error (.idOutOfRange 16) ∧
    Tuple.load 64 ⟨16, 2, 1, 2⟩ = .error (.idOutOfRange 16) ∧
    Tuple.load 64 ⟨0, 0, 2 ^ 64, 0⟩ = .error (.fieldTooWide .b (2 ^ 64)) := by decide

theorem test_encode : encodeWord 64 .identity (.eqrr 3 0 3) = some 0xd000000000000000300000000000000000000000000000003 := by decide

/-- The table's match words (opcode_table.json), first and last row. -/
theorem test_table_word :
    decodeTableWord 200 0 = some (.addr 0 0 0) ∧ decodeTableWord 200 (15 * 2 ^ 192) = some (.eqir 0 0 0) := by decide

/-- M2's MAP: identity with ids 9 and 13 swapped. -/
def swapped : Mapping := #v[0, 1, 2, 3, 4, 5, 6, 7, 8, 13, 10, 11, 12, 9, 14, 15]

/-- M5's MAP: `MAP[0] = MAP[1] = 0`. -/
def doubled : Mapping := #v[0, 0, 2, 3, 4, 5, 6, 7, 8, 9, 10, 11, 12, 13, 14, 15]

/-- M1 to M3: the raw tuple (9, 2, 1, 2) under the identity, and both swapped ids under M2's MAP. -/
theorem test_mapping :
    decode .identity ⟨9, 2, 1, 2⟩ = .seti 2 1 2 ∧ decode swapped ⟨9, 2, 1, 2⟩ = .eqrr 2 1 2 ∧
    decode swapped ⟨13, 2, 1, 2⟩ = .seti 2 1 2 ∧ swapped.isBijection = true ∧ doubled.isBijection = false := by decide

/-- R83, R96: a mnemonic is loaded as its canonical code; a name that is no mnemonic names no opcode. -/
theorem test_mnemonics :
    Opcode.ofMnemonic "seti" = some .seti ∧ Opcode.ofMnemonic "jmp" = none ∧ Opcode.eqir.tuple 9 1 2 = ⟨15, 9, 1, 2⟩ := by decide

/-! One instruction each: a completing and a faulting vector. -/

theorem test_addr :
    regsPc (exec (.addr 0 1 0) (file [max, max, 0, 0])) = some ([max - 1, max, 0, 0], 1) ∧  -- V4
    verdict (exec (.addr 0 7 9) (file [0, 0, 0, 0])) = faultAt 0 .b 7 [0, 0, 0, 0] := by decide  -- V6

theorem test_addi :
    regsPc (exec (.addi 0 max 1) (file [5, 0, 0, 0])) = some ([5, 4, 0, 0], 1) ∧  -- V9
    verdict (exec (.addi 0 99 4) (file [0, 0, 0, 0])) = faultAt 0 .c 4 [0, 0, 0, 0] := by decide  -- V10

theorem test_mulr :
    regsPc (exec (.mulr 0 0 1) (file [max, 0, 0, 0])) = some ([max, 1, 0, 0], 1) ∧  -- V12
    verdict (exec (.mulr 0 5 0) (file [1, 1, 1, 1])) = faultAt 0 .b 5 [1, 1, 1, 1] := by decide  -- V15

theorem test_muli :
    regsPc (exec (.muli 0 max 1) (file [5, 0, 0, 0])) = some ([5, max - 4, 0, 0], 1) ∧  -- V17
    regsPc (exec (.muli 0 2 0) (file [2 ^ 63, 0, 0, 0])) = some ([0, 0, 0, 0], 1) := by decide  -- V18

theorem test_banr :
    regsPc (exec (.banr 0 1 2) (file [12, 10, 0, 0])) = some ([12, 10, 8, 0], 1) ∧  -- V20
    verdict (exec (.banr 0 4 0) (file [0, 0, 0, 0])) = faultAt 0 .b 4 [0, 0, 0, 0] := by decide  -- V23

theorem test_bani :
    regsPc (exec (.bani 0 255 3) (file [4660, 0, 0, 0])) = some ([4660, 0, 0, 52], 1) ∧  -- V24
    verdict (exec (.bani 6 1 0) (file [0, 0, 0, 0])) = faultAt 0 .a 6 [0, 0, 0, 0] := by decide  -- V27

theorem test_borr :
    regsPc (exec (.borr 0 1 2) (file [12, 10, 0, 0])) = some ([12, 10, 14, 0], 1) ∧  -- V28
    verdict (exec (.borr 0 1 5) (file [0, 0, 0, 0])) = faultAt 0 .c 5 [0, 0, 0, 0] := by decide  -- V31

theorem test_bori :
    regsPc (exec (.bori 0 6 1) (file [1, 0, 0, 0])) = some ([1, 7, 0, 0], 1) ∧  -- V32
    verdict (exec (.bori 0 1 8) (file [0, 0, 0, 0])) = faultAt 0 .c 8 [0, 0, 0, 0] := by decide  -- V35

theorem test_setr :
    regsPc (exec (.setr 0 99 3) (file [9, 0, 0, 0])) = some ([9, 0, 0, 9], 1) ∧  -- V36
    verdict (exec (.setr 4 0 0) (file [0, 0, 0, 0])) = faultAt 0 .a 4 [0, 0, 0, 0] := by decide  -- V38

theorem test_seti :
    regsPc (exec (.seti 7 5 3) (file [1, 2, 3, 4])) = some ([1, 2, 3, 7], 1) ∧  -- V43
    verdict (exec (.seti 0 0 4) (file [0, 0, 0, 0])) = faultAt 0 .c 4 [0, 0, 0, 0] := by decide  -- V42

theorem test_gtrr :
    regsPc (exec (.gtrr 0 1 2) (file [max, 0, 0, 0])) = some ([max, 0, 1, 0], 1) ∧  -- V47
    regsPc (exec (.gtrr 1 0 2) (file [5, 3, 0, 0])) = some ([5, 3, 0, 0], 1) := by decide  -- V45

theorem test_gtri :
    regsPc (exec (.gtri 0 4 1) (file [5, 0, 0, 0])) = some ([5, 1, 0, 0], 1) ∧  -- V50
    regsPc (exec (.gtri 0 5 1) (file [5, 0, 0, 0])) = some ([5, 0, 0, 0], 1) := by decide  -- V49

theorem test_gtir :
    regsPc (exec (.gtir 99 1 0) (file [0, 98, 0, 0])) = some ([1, 98, 0, 0], 1) ∧  -- V56
    verdict (exec (.gtir 1 4 0) (file [0, 0, 0, 0])) = faultAt 0 .b 4 [0, 0, 0, 0] := by decide  -- V58

theorem test_eqrr :
    regsPc (exec (.eqrr 0 0 0) (file [7, 0, 0, 0])) = some ([1, 0, 0, 0], 1) ∧  -- V60
    regsPc (exec (.eqrr 0 1 0) (file [7, 8, 0, 0])) = some ([0, 8, 0, 0], 1) := by decide  -- V61

theorem test_eqri :
    regsPc (exec (.eqri 2 7 0) (file [0, 0, 7, 0])) = some ([1, 0, 7, 0], 1) ∧  -- V63
    verdict (exec (.eqri 5 9 2) (file [0, 0, 0, 0])) = faultAt 0 .a 5 [0, 0, 0, 0] := by decide  -- V66

theorem test_eqir :
    regsPc (exec (.eqir 9 1 2) (file [0, 9, 0, 0])) = some ([0, 9, 1, 0], 1) ∧  -- V67
    verdict (exec (.eqir 9 5 2) (file [0, 0, 0, 0])) = faultAt 0 .b 5 [0, 0, 0, 0] := by decide  -- V69

/-! The ip binding (S1, S2, S3, S5) and the halt (S6). -/

theorem test_binding :
    regsPc (exec (.addi 2 3 2) { bound 2 [0, 0, 0, 0] with pc := 7 }) = some ([0, 0, 10, 0], 11) ∧  -- S1
    regsPc (exec (.setr 0 0 1) { bound 0 [0, 0, 0, 0] with pc := 3 }) = some ([3, 3, 0, 0], 4) ∧  -- S2
    regsPc (exec (.seti max 0 0) (bound 0 [0, 0, 0, 0])) = some ([max, 0, 0, 0], 2 ^ 64) ∧  -- S3
    verdict (exec (.addr 0 0 9) (bound 3 [1, 2, 3, 42])) = faultAt 0 .c 9 [1, 2, 3, 42] := by decide  -- S5

theorem test_halt_no_mirror :
    verdict (step (at_ 1 [⟨9, 1, 0, 0⟩] (bound 3 [1, 2, 3, 4]))) =
      some (⟨.halted, .none⟩, ⟨0, .a, 0⟩, [1, 2, 3, 4], 1) := by decide  -- S6

/-! Watch-halt (W1, W5, W6, W8). -/

theorem test_watch :
    verdict (step (at_ 0 [⟨13, 1, 0, 4⟩] (watching 0 [0, 1, 2, 3, 4, 5]))) =
      some (⟨.watchHalt, .none⟩, ⟨0, .a, 0⟩, [0, 1, 2, 3, 4, 5], 0) ∧  -- W1
    regsPc (step (at_ 0 [⟨1, 1, 1, 1⟩] { watching 0 [9, 1, 2, 3, 4, 5] with ipb := ⟨true, 0⟩ })) =
      some ([0, 2, 2, 3, 4, 5], 1) := by decide  -- W5

theorem test_watch_before_range_check :
    verdict (step (at_ 0 [⟨0, 0, 9, 1⟩] (watching 0 [0, 1, 2, 3]))) =
      some (⟨.watchHalt, .none⟩, ⟨0, .a, 0⟩, [0, 1, 2, 3], 0) ∧  -- W6
    verdict (step (at_ 0 [⟨0, 1, 9, 1⟩] (watching 3 [0, 1, 2, 3]))) = faultAt 0 .b 9 [0, 1, 2, 3] := by decide  -- W8

/-! Reset, the placed instruction, the launch (LA1 to LA5, M4, M5). -/

theorem test_reset_step : verdict (step State.reset) = some (⟨.halted, .none⟩, ⟨0, .a, 0⟩, [0, 0, 0, 0], 0) := by decide

/-- P1's first word, placed after reset, runs as the next step. -/
theorem test_withFetchWord :
    regsPc (step (State.reset.withFetchWord 200 0x9000000000000000700000000000000000000000000000000)) = some ([7, 0, 0, 0], 1) := by
  decide

/-- A launch of one instruction. -/
def args (nreg : Nat) (r0 : List Nat) (program : List Tuple) : LaunchArgs :=
  { width := 64, nreg := nreg, ipb := ⟨false, 0⟩, map := .identity, wcfg := ⟨false, 0⟩, program := program, r0 := r0 }

theorem test_launch_refusals :
    refusal? (launch (args 5 [0, 0, 0, 0, 0] []) ⟨0, .a, 0⟩) = some (.registerCount 5) ∧  -- LA1
    refusal? (launch (args 4 [0, 0, 0, 0, 0, 0] []) ⟨0, .a, 0⟩) = some (.registerFileLength 6 4) ∧  -- LA2
    refusal? (launch { args 4 [0, 0, 0, 0] [] with ipb := ⟨true, 4⟩ } ⟨0, .a, 0⟩) = some (.bindingOutOfRange 4) ∧  -- LA3
    refusal? (launch { args 4 [0, 0, 0, 0] [] with map := doubled } ⟨0, .a, 0⟩) = some .unresolvedMapping ∧  -- M5
    refusal? (launch (args 4 [3, 2, 1, 1] [⟨9, 2, 1, 2⟩, ⟨16, 2, 1, 2⟩]) ⟨0, .a, 0⟩) =
      some (.badInstruction 1 (.idOutOfRange 16)) := by decide  -- M4, at index 1

theorem test_launch_accepts :
    verdict (launch { args 6 [0, 0, 0, 0, 0, 0] [⟨9, 1, 0, 0⟩] with ipb := ⟨true, 5⟩ } ⟨0, .a, 0⟩) =
      some (⟨.running, .none⟩, ⟨0, .a, 0⟩, [0, 0, 0, 0, 0, 0], 0) ∧  -- LA4, with P2's first instruction
    regsPc (launch (args 4 [0, 0, 0, 0] [⟨0, 0, 0, 9⟩]) ⟨0, .a, 0⟩) = some ([0, 0, 0, 0], 0) := by decide  -- LA5

/-! The host's service in WATCH_HALT: the resume action of P6b at its first halt, and the two refusals of a write. -/

/-- A suspended state. -/
def suspended (x : List Nat) (pc : Nat) : State := { file x with status := ⟨.watchHalt, .none⟩, pc := pc }

theorem test_resumeAction :
    verdict (resumeAction 4 1 (suspended [0, 1, 0, 0, 7, 2] 3)) =
      some (⟨.running, .none⟩, ⟨0, .a, 0⟩, [0, 1, 0, 0, 0, 2], 4) ∧
    refusal? (hostWriteReg 4 0 (suspended [0, 0, 0, 0] 0)) = some (.noSuchRegister 4) ∧
    refusal? (hostWriteReg 0 0 (file [0, 0, 0, 0])) = some .notSuspended := by decide

/-! Witnesses: each shows that hypotheses of statements of the same matter can be met, at the boundary where clauses meet. -/

/-- PackedWordBits, EncodedInstructionsDecodeToThemselves, EveryPackedWordIsOneInstruction, WideIdsAreRefusedByIndex (second clause):
the widest slot and instruction, and the last packed word and the first number after it. -/
theorem witness_encoding :
    RawInstr.wellFormed 64 ⟨15, max, max, max⟩ = true ∧ Mapping.identity.isBijection = true ∧ swapped.isBijection = true ∧
    (Instr.eqir max max max).wellFormed 64 = true ∧ 2 ^ 196 - 1 < 2 ^ (4 + 3 * 64) ∧ 2 ^ (4 + 3 * 64) ≤ 2 ^ 196 := by decide

/-- BijectiveMappingDenotesEachOpcodeOnce (second clause): a launch with M5's MAP. -/
theorem witness_no_bijection : { args 4 [0, 0, 0, 0] [] with map := doubled }.map.isBijection = false := by decide

/-- WideIdsAreRefusedByIndex: a good tuple and then one of id 16. -/
theorem witness_wide_id :
    (args 4 [0, 0, 0, 0] [⟨0, 0, 0, 0⟩, ⟨16, 0, 0, 0⟩]).refusal? = none ∧
    (args 4 [0, 0, 0, 0] [⟨0, 0, 0, 0⟩, ⟨16, 0, 0, 0⟩]).program[1]? = some ⟨16, 0, 0, 0⟩ ∧
    Tuple.load 64 ⟨0, 0, 0, 0⟩ = .ok ⟨0, 0, 0, 0⟩ := by decide

/-- The 16 instruction statements, LogicResultsWorkBitByBit: field 3 is the last below NREG = 4 and field 4 the first past it. -/
theorem witness_field_ranges : 3 < (file [0, 0, 0, 0]).nreg ∧ (file [0, 0, 0, 0]).nreg ≤ 4 := by decide

/-- The decode clause of the 16 instruction statements: under the identity, id k has code k for every k. -/
theorem witness_codes : ∀ k : Fin 16, Mapping.identity[k] = k := by decide

/-- LogicResultsWorkBitByBit, its width clauses: two 64-bit operands, the widest among them. -/
theorem witness_word_operands :
    (file [max, 85, 0, 0]).source 0 < 2 ^ (file [max, 85, 0, 0]).width ∧
    (file [max, 85, 0, 0]).source 1 < 2 ^ (file [max, 85, 0, 0]).width := by decide

/-- ComparisonsWriteZeroOrOne, InstructionsComputeOnTheMirroredFile, NextPcOfEveryInstruction, FirstCheckedFieldOutOfRangeFaults: an
instruction of each operand shape with its checked fields in range, and one without. -/
theorem witness_checked_fields :
    (∀ p ∈ checkedFields (.gtrr 3 0 3), p.2 < (file [0, 0, 0, 0]).nreg) ∧
    (∀ p ∈ checkedFields (.gtir 99 3 3), p.2 < (file [0, 0, 0, 0]).nreg) ∧
    (∀ p ∈ checkedFields (.seti 99 99 3), p.2 < (file [0, 0, 0, 0]).nreg) ∧
    (Instr.gtrr 3 0 3).opcode ∈ [Opcode.gtrr, .gtri, .gtir, .eqrr, .eqri, .eqir] ∧
    (checkedFields (.addr 0 4 9)).find? (fun p => decide ((file [0, 0, 0, 0]).nreg ≤ p.2)) = some (.b, 4) ∧
    (checkedFields (.addr 0 3 3)).find? (fun p => decide ((file [0, 0, 0, 0]).nreg ≤ p.2)) = none := by decide

/-- NextPcOfEveryInstruction and UnboundRunsEnd: a state without a binding, and one bound to another register than the destination. -/
theorem witness_bindings :
    (file [0, 0, 0, 0]).binding = none ∧ (bound 3 [0, 0, 0, 0]).binding = some 3 ∧ (Instr.seti 0 0 2).fieldC ≠ 3 ∧
    3 < (bound 3 [0, 0, 0, 0]).nreg := by decide

/-- WritesToTheBoundRegisterJump: the four jumps at the last pc and register that do not wrap. -/
theorem witness_jumps :
    (bound 3 [1, 0, 0, 0]).binding = some 3 ∧ 0 < (bound 3 [1, 0, 0, 0]).nreg ∧ (bound 3 [1, 0, 0, 0]).pc + max < 2 ^ 64 ∧
    ({ bound 3 [1, 0, 0, 0] with pc := max - 1 } : State).pc + ({ bound 3 [1, 0, 0, 0] with pc := max - 1 } : State).reg 0 < 2 ^ 64 := by
  decide

/-- PcNeverWraps: the state of S3 is legal, and its seti leaves MAX in the bound register. -/
theorem witness_no_wrap :
    (at_ 0 [⟨9, max, 0, 0⟩] (bound 0 [0, 0, 0, 0])).Legal ∧
    (next? (exec (.seti max 0 0) (at_ 0 [⟨9, max, 0, 0⟩] (bound 0 [0, 0, 0, 0])))).map (fun t => t.reg 0) = some (2 ^ 64 - 1) := by
  decide

/-- StepRunsTheDecodedInstruction, ProgramEndHaltsAndNothingElseDoes, StepsKeepLegalStates: a legal running state with a slot at its pc
that does not touch the watched register, and one past the end. -/
theorem witness_step :
    (at_ 0 [⟨9, 5, 0, 1⟩] (watching 0 [0, 0, 0, 0])).Legal ∧
    (at_ 0 [⟨9, 5, 0, 1⟩] (watching 0 [0, 0, 0, 0])).status.code = .running ∧
    (at_ 0 [⟨9, 5, 0, 1⟩] (watching 0 [0, 0, 0, 0])).program[0]? = some ⟨9, 5, 0, 1⟩ ∧
    (instrForm (decode .identity ⟨9, 5, 0, 1⟩)).touches 0 = false ∧
    (at_ 1 [⟨9, 5, 0, 1⟩] (file [0, 0, 0, 0])).program.length ≤ 1 := by decide

/-- OneOutcomeByPriority, StatusMovesAlongItsEdges, StepsAreIndivisible, ProgramNeverChanges, ConfigurationIsConstantDuringARun,
FaultRecordIsNeverRead, WatchingChangesNothingButTheSuspension: steps that answer next states of each run status. -/
theorem witness_outcomes :
    (next? (step (at_ 0 [⟨9, 5, 0, 1⟩] (file [0, 0, 0, 0])))).map (fun t => t.status.code) = some .running ∧
    (next? (step (at_ 1 [⟨9, 5, 0, 1⟩] (file [0, 0, 0, 0])))).map (fun t => t.status.code) = some .halted ∧
    (next? (step (at_ 0 [⟨9, 5, 0, 0⟩] (watching 0 [0, 0, 0, 0])))).map (fun t => t.status.code) = some .watchHalt ∧
    (next? (step (at_ 0 [⟨9, 5, 0, 4⟩] (file [0, 0, 0, 0])))).map (fun t => t.status.code) = some .fault := by decide

/-- StatusMovesAlongItsEdges, RaisingIsFinal, FaultRecordIsNeverRead (second clause): states in which no step is enabled. -/
theorem witness_final :
    (file [0, 0, 0, 0]).halt.status.code = .halted ∧
    ((file [0, 0, 0, 0]).raise .outOfRangeRegister .a 4).status.code = .fault ∧
    (file [0, 0, 0, 0]).suspend.status.code = .watchHalt := by decide

/-- WatchHaltComesBeforeTheInstruction, ResumeWithoutMovingThePcSuspendsAgain, OneOutcomeByPriority: W6's instruction touches the watched
register 0. -/
theorem witness_watch :
    (at_ 0 [⟨0, 0, 9, 1⟩] (watching 0 [0, 1, 2, 3])).wcfg.en = true ∧ (0 : Nat) ∈ (watching 0 [0, 1, 2, 3]).watched ∧
    (.a, 0) ∈ checkedFields (decode .identity ⟨0, 0, 9, 1⟩) ∧
    (at_ 0 [⟨0, 0, 9, 1⟩] (watching 0 [0, 1, 2, 3])).suspend.status.code = .watchHalt := by decide

/-- ResumeWithoutMovingThePcSuspendsAgain, its clause on R197's remark: W6's state as the suspension hands it over has the fault B = 9
waiting, and the resume of the remark raises it; after a register is changed none waits, and the watch-halt test fires again. -/
theorem witness_waiting_fault :
    (at_ 0 [⟨0, 0, 9, 1⟩] (watching 0 [0, 1, 2, 3])).suspend.waitingFault = some (.b, 9) ∧
    verdict (hostResumeRaising (at_ 0 [⟨0, 0, 9, 1⟩] (watching 0 [0, 1, 2, 3])).suspend) = faultAt 0 .b 9 [0, 1, 2, 3] ∧
    ({ (at_ 0 [⟨0, 0, 9, 1⟩] (watching 0 [0, 1, 2, 3])).suspend with regs := [0, 1, 2, 4] }).waitingFault = none ∧
    verdict (hostResumeRaising { (at_ 0 [⟨0, 0, 9, 1⟩] (watching 0 [0, 1, 2, 3])).suspend with regs := [0, 1, 2, 4] }) =
      some (⟨.watchHalt, .none⟩, ⟨0, .a, 0⟩, [0, 1, 2, 4], 0) := by decide

/-- ResumeWithoutMovingThePcSuspendsAgain: a resume of W6's and of W1's state without a change, and a step (R215). -/
theorem witness_suspends_again :
    ((next? (hostResume (at_ 0 [⟨0, 0, 9, 1⟩] (watching 0 [0, 1, 2, 3])).suspend)).bind fun u => next? (step u)) =
      some (at_ 0 [⟨0, 0, 9, 1⟩] (watching 0 [0, 1, 2, 3])).suspend ∧
    ((next? (hostResume (at_ 0 [⟨13, 1, 0, 4⟩] (watching 0 [0, 1, 2, 3, 4, 5])).suspend)).bind fun u => next? (step u)) =
      some (at_ 0 [⟨13, 1, 0, 4⟩] (watching 0 [0, 1, 2, 3, 4, 5])).suspend := by decide

/-- HostWritesOnlyWhileSuspended, ResumeActionZeroesAndAdvances, HostServiceKeepsLegalStates, ProgramNeverChanges and
ConfigurationIsConstantDuringARun (host clauses): a legal suspended state, the last register and the widest word. -/
theorem witness_host_service :
    (suspended [0, 1, 2, 3] 5).Legal ∧ (suspended [0, 1, 2, 3] 5).status.code = .watchHalt ∧
    3 < (suspended [0, 1, 2, 3] 5).nreg ∧ max < 2 ^ (suspended [0, 1, 2, 3] 5).width ∧
    ((next? (hostWriteReg 3 max (suspended [0, 1, 2, 3] 5))).isSome && (next? (hostSetPc 9 (suspended [0, 1, 2, 3] 5))).isSome &&
      (next? (hostResume (suspended [0, 1, 2, 3] 5))).isSome && (next? (resumeAction 3 1 (suspended [0, 1, 2, 3] 5))).isSome) = true ∧
    (file [0, 1, 2, 3]).status.code ≠ .watchHalt := by decide

/-- EmptyProgramHaltsUnchanged, LaunchMakesLegalStates, LaunchSetsTheStartState, LaunchIsRefusedExactlyWhenACheckFails: an accepted launch
of the empty program with a binding, and a refused one, both of a legal width. -/
theorem witness_launch :
    (next? (launch { args 4 [3, 2, 1, 1] [] with ipb := ⟨true, 3⟩ } ⟨7, .b, 8⟩)).isSome = true ∧
    (next? (launch (args 5 [0, 0, 0, 0, 0] []) ⟨7, .b, 8⟩)).isSome = false ∧
    1 ≤ ({ args 4 [3, 2, 1, 1] [] with ipb := ⟨true, 3⟩ } : LaunchArgs).width := by decide

/-- DisabledIndexBitsAreIgnored, clause by clause: IPB off while WCFG is on, WCFG off while IPB is on, and steps that answer next
states. -/
theorem witness_disabled :
    (at_ 0 [⟨9, 5, 0, 1⟩] (watching 2 [0, 0, 0, 0])).ipb.en = false ∧ (at_ 0 [⟨9, 5, 0, 1⟩] (watching 2 [0, 0, 0, 0])).wcfg.en = true ∧
    (next? (step (at_ 0 [⟨9, 5, 0, 1⟩] (watching 2 [0, 0, 0, 0])))).isSome = true ∧
    (at_ 0 [⟨9, 5, 0, 1⟩] (bound 3 [0, 0, 0, 0])).wcfg.en = false ∧ (at_ 0 [⟨9, 5, 0, 1⟩] (bound 3 [0, 0, 0, 0])).ipb.en = true ∧
    (next? (step (at_ 0 [⟨9, 5, 0, 1⟩] (bound 3 [0, 0, 0, 0])))).isSome = true := by decide

/-- SampleConsistencyIsOneUnboundInstruction: the source's sample on an unbound running state. -/
theorem witness_sample :
    (file [3, 2, 1, 1]).binding = none ∧ (file [3, 2, 1, 1]).status.code = .running ∧
    (file [3, 2, 1, 1]).regs = (⟨[3, 2, 1, 1], ⟨9, 2, 1, 2⟩, [3, 2, 2, 1]⟩ : Sample).pre := by decide

/-- FuelDoesNotChangeAVerdict: runs with each verdict of its clauses. -/
theorem witness_verdicts :
    (runFuel 0 (file [0, 0, 0, 0])).1 = .outOfFuel ∧ (runFuel 1 (file [0, 0, 0, 0])).1 = .halted ∧
    (runFuel 1 (at_ 0 [⟨9, 5, 0, 4⟩] (file [0, 0, 0, 0]))).1 = .faulted ∧
    (runFuel 1 (at_ 0 [⟨9, 5, 0, 0⟩] (watching 0 [0, 0, 0, 0]))).1 = .suspended := by decide

/-- CycleAnswerIsTheLastNewValue: distinct values and a repeat among them. -/
theorem witness_cycle : [3, 1, 4].Nodup ∧ 1 ∈ [3, 1, 4] := by decide

end Sys2Proof.Tests
end

section
/-! PROOFS. The invariants of a run: what a step can make of a state, which updates keep the configuration (R7, R40 to R42, R201), and
which keep a legal state legal. -/

namespace Sys2Proof.Machine

variable {s t u : State}

/-! ### What a step and a host operation can answer -/

/-- A failing range check names a register-index field, and its value is at or past NREG (R114). -/
theorem Form.mem_of_firstOutOfRange {f : Form} {n v : Nat} {field : FieldName} (h : f.firstOutOfRange n = some (field, v)) :
    (field, v) ∈ f.registerFields ∧ n ≤ v :=
  ⟨List.mem_of_find?_eq_some h, by simpa using List.find?_some h⟩

/-- The four outcomes of a step that answers a next state: the end of the program, a suspension, a fault of the fetched instruction, or
its completion (R110, R197). -/
theorem step_outcomes (h : step s = .next t) :
    s.status.code = .running ∧
    (t = s.halt ∨ t = s.suspend ∨
     (∃ r field v, s.program[s.pc]? = some r ∧
        (instrForm (decode s.map r)).firstOutOfRange s.nreg = some (field, v) ∧ t = faulted s field v) ∨
     (∃ r, s.program[s.pc]? = some r ∧
        Completed s t (decode s.map r).fieldC (evaluate s.width s.mirror.regs (decode s.map r)))) := by
  obtain ⟨hrun, ⟨-, rfl⟩ | ⟨r, hf, ⟨-, rfl⟩ | ⟨-, hex⟩⟩⟩ := step_cases h
  · exact ⟨hrun, .inl rfl⟩
  · exact ⟨hrun, .inr (.inl rfl)⟩
  · refine ⟨hrun, .inr (.inr ?_)⟩
    rcases exec_cases (decode s.map r) s with ⟨field, v, hr, e⟩ | ⟨-, t', e, hd⟩
    · exact .inl ⟨r, field, v, hf, hr, by simpa [hex] using e⟩
    · obtain rfl : t = t' := by simpa [hex] using e
      exact .inr ⟨r, hf, by simpa using hd⟩

theorem resumeAction_next_iff {i n : Nat} :
    resumeAction i n s = .next t ↔
      ∃ w, (∃ u, hostWriteReg i 0 s = .next u ∧ hostSetPc (u.pc + n) u = .next w) ∧ hostResume w = .next t := by
  simp only [resumeAction, andThen_next_iff]

/-- What the resume of R197's remark can answer: the fault that waits, or the step after a plain resume. -/
theorem hostResumeRaising_cases (h : hostResumeRaising s = .next t) :
    (∃ field v, s.waitingFault = some (field, v) ∧ t = faulted s field v) ∨
    ∃ u, hostResume s = .next u ∧ step u = .next t := by
  cases hw : s.waitingFault with
  | none =>
    rw [hostResumeRaising_steps hw] at h
    exact .inr (andThen_next_iff.mp h)
  | some p =>
    obtain ⟨_, hu, -⟩ := andThen_next_iff.mp h
    rw [hostResumeRaising_raises (hostResume_next_iff.mp hu).1 hw] at h
    exact .inl ⟨p.1, p.2, rfl, by simpa [eq_comm] using h⟩

/-! ### The configuration -/

/-- Width, register count, binding, mapping and watch policy of `t` are those of `s`. -/
def KeepsConfiguration (s t : State) : Prop :=
  t.width = s.width ∧ t.nreg = s.nreg ∧ t.ipb = s.ipb ∧ t.map = s.map ∧ t.wcfg = s.wcfg

theorem KeepsConfiguration.refl (s : State) : KeepsConfiguration s s := ⟨rfl, rfl, rfl, rfl, rfl⟩

theorem KeepsConfiguration.trans (h : KeepsConfiguration s t) (h' : KeepsConfiguration t u) : KeepsConfiguration s u := by
  obtain ⟨hw, hn, hi, hm, hc⟩ := h
  obtain ⟨hw', hn', hi', hm', hc'⟩ := h'
  exact ⟨hw'.trans hw, hn'.trans hn, hi'.trans hi, hm'.trans hm, hc'.trans hc⟩

theorem Completed.keepsConfiguration {c v : Nat} (h : Completed s t c v) : KeepsConfiguration s t :=
  ⟨h.width, h.length, h.ipb, h.map, h.wcfg⟩

theorem step_keepsConfiguration (h : step s = .next t) : KeepsConfiguration s t := by
  obtain ⟨-, rfl | rfl | ⟨_, _, _, -, -, rfl⟩ | ⟨_, -, hd⟩⟩ := step_outcomes h
  · exact .refl s
  · exact .refl s
  · exact .refl s
  · exact hd.keepsConfiguration

/-- A step that stays RUNNING completed its instruction, which writes neither STATUS nor FINFO (R201). -/
theorem step_keepsStatus_of_running (h : step s = .next t) (hrun : t.status.code = .running) :
    t.status = s.status ∧ t.finfo = s.finfo := by
  obtain ⟨-, rfl | rfl | ⟨_, _, _, -, -, rfl⟩ | ⟨_, -, hd⟩⟩ := step_outcomes h
  · cases hrun
  · cases hrun
  · cases hrun
  · exact ⟨hd.status, hd.finfo⟩

theorem hostWriteReg_keepsConfiguration {i v : Nat} (h : hostWriteReg i v s = .next t) : KeepsConfiguration s t := by
  obtain ⟨-, -, -, rfl⟩ := hostWriteReg_next_iff.mp h
  exact ⟨rfl, State.setReg_nreg s i v, rfl, rfl, rfl⟩

theorem hostSetPc_keepsConfiguration {n : Nat} (h : hostSetPc n s = .next t) : KeepsConfiguration s t := by
  obtain ⟨-, rfl⟩ := hostSetPc_next_iff.mp h
  exact .refl s

theorem hostResume_keepsConfiguration (h : hostResume s = .next t) : KeepsConfiguration s t := by
  obtain ⟨-, rfl⟩ := hostResume_next_iff.mp h
  exact .refl s

theorem resumeAction_keepsConfiguration {i n : Nat} (h : resumeAction i n s = .next t) : KeepsConfiguration s t := by
  obtain ⟨w, ⟨u, hwrite, hpc⟩, hresume⟩ := resumeAction_next_iff.mp h
  exact ((hostWriteReg_keepsConfiguration hwrite).trans (hostSetPc_keepsConfiguration hpc)).trans
    (hostResume_keepsConfiguration hresume)

theorem hostResumeRaising_keepsConfiguration (h : hostResumeRaising s = .next t) : KeepsConfiguration s t := by
  obtain ⟨_, _, -, rfl⟩ | ⟨u, hresume, hstep⟩ := hostResumeRaising_cases h
  · exact .refl s
  · exact (hostResume_keepsConfiguration hresume).trans (step_keepsConfiguration hstep)

/-! ### Legal states -/

/-- The checked fields are among the instruction's fields A, B and C (R192). -/
theorem mem_checkedFields {i : Instr} {q : FieldName × Nat} (h : q ∈ checkedFields i) :
    q = (.a, i.fieldA) ∨ q = (.b, i.fieldB) ∨ q = (.c, i.fieldC) := by
  cases i <;> simp [checkedFields] at h <;> tauto

/-- The checked fields of a well-formed instruction are W-bit words (R80). -/
theorem checkedFields_lt {W : Nat} {i : Instr} {q : FieldName × Nat} (hi : i.wellFormed W = true) (h : q ∈ checkedFields i) :
    q.2 < 2 ^ W := by
  rw [Instr.wellFormed_eq, fieldsFit_iff] at hi
  obtain ⟨ha, hb, hc⟩ := hi
  obtain rfl | rfl | rfl := mem_checkedFields h
  · exact ha
  · exact hb
  · exact hc

/-- A fetched slot lies below `2^W` in the program, and its decoded instruction is well formed (R62, R80, R232). -/
theorem State.ProgramFits.fetched {r : RawInstr} (h : s.ProgramFits) (hf : s.program[s.pc]? = some r) :
    s.pc < s.program.length ∧ s.pc < 2 ^ s.width ∧ (decode s.map r).wellFormed s.width = true := by
  obtain ⟨hslots, hlen⟩ := h
  obtain ⟨hpc, -⟩ := List.getElem?_eq_some_iff.mp hf
  exact ⟨hpc, hpc.trans_le hlen, by rw [decode_wellFormed]; exact hslots r (List.mem_of_getElem? hf)⟩

/-- Outside FAULT a legal STATUS is one without a cause (R43). -/
theorem State.statusLegal_iff_of_safe (h : s.Safe) : s.StatusLegal ↔ s.status.cause = .none := by
  simp only [State.StatusLegal, if_neg h]

theorem State.safe_of_running (h : s.status.code = .running) : s.Safe := by simp [State.Safe, h]

theorem State.Legal.cause_of_running (h : s.Legal) (hrun : s.status.code = .running) : s.status.cause = .none := by
  obtain ⟨-, -, -, hstatus⟩ := h
  exact (State.statusLegal_iff_of_safe (State.safe_of_running hrun)).mp hstatus

/-- Halting keeps a legal RUNNING state legal (R111). -/
theorem State.Legal.halt (h : s.Legal) (hrun : s.status.code = .running) : s.halt.Legal := by
  have ⟨hconf, hregs, hprog, _⟩ := h
  exact ⟨hconf, hregs, hprog, h.cause_of_running hrun⟩

/-- A suspension keeps a legal RUNNING state legal (R212). -/
theorem State.Legal.suspend (h : s.Legal) (hrun : s.status.code = .running) : s.suspend.Legal := by
  have ⟨hconf, hregs, hprog, _⟩ := h
  exact ⟨hconf, hregs, hprog, h.cause_of_running hrun⟩

/-- Raising the first field out of range of the instruction at the pc keeps a legal state legal: the record names a slot of the program,
and the value is a field of a well-formed instruction (R44, R191, R192). -/
theorem State.Legal.faulted {r : RawInstr} {field : FieldName} {v : Nat} (h : s.Legal) (hf : s.program[s.pc]? = some r)
    (hv : (instrForm (decode s.map r)).firstOutOfRange s.nreg = some (field, v)) : (faulted s field v).Legal := by
  obtain ⟨hconf, hregs, hprog, -⟩ := h
  obtain ⟨hpc, -, hwf⟩ := hprog.fetched hf
  obtain ⟨hmem, hout⟩ := Form.mem_of_firstOutOfRange hv
  have hword : v < 2 ^ s.width := checkedFields_lt hwf (checkedFields_eq _ ▸ hmem)
  exact ⟨hconf, hregs, hprog, rfl, rfl, hpc, hout, hword⟩

/-- Completing the instruction at the pc keeps a legal RUNNING state legal: the mirrored pc and the result are W-bit words (R33, R117,
R123). -/
theorem State.Legal.completed {r : RawInstr} {c : Nat} (h : s.Legal) (hrun : s.status.code = .running)
    (hf : s.program[s.pc]? = some r)
    (hd : Completed s t c (evaluate s.width s.mirror.regs (decode s.map r))) : t.Legal := by
  have hcause := h.cause_of_running hrun
  obtain ⟨hconf, hregs, hprog, -⟩ := h
  have ⟨hwidth, _⟩ := hconf
  obtain ⟨-, hpc, hwf⟩ := hprog.fetched hf
  have hresult := evaluate_lt hwidth (State.mirror_registersFit hregs hpc) hwf
  have hstatus : t.StatusLegal := by
    rw [State.statusLegal_iff_of_safe (State.safe_of_running (hd.status ▸ hrun)), hd.status]
    exact hcause
  exact ⟨hd.configurationLegal hconf, hd.registersFit hregs hresult hpc, hd.programFits hprog, hstatus⟩

/-! ### The obligations -/

/-- Settles O36: each of a step's four outcomes keeps a legal state legal. -/
theorem stepsKeepLegalStates : Obligations.StepsKeepLegalStates := by
  unfold Obligations.StepsKeepLegalStates
  intro s t hs h
  obtain ⟨hrun, rfl | rfl | ⟨r, field, v, hf, hv, rfl⟩ | ⟨r, hf, hd⟩⟩ := step_outcomes h
  · exact hs.halt hrun
  · exact hs.suspend hrun
  · exact hs.faulted hf hv
  · exact hs.completed hrun hf hd

/-- Settles O35: a step and every host operation keep the configuration, and only a completed instruction leaves the core RUNNING. -/
theorem configurationIsConstantDuringARun : Obligations.ConfigurationIsConstantDuringARun := by
  unfold Obligations.ConfigurationIsConstantDuringARun
  refine ⟨fun s t h => ⟨step_keepsConfiguration h, step_keepsStatus_of_running h⟩, ?_⟩
  rintro s t i v n (h | h | h | h | h)
  · exact hostWriteReg_keepsConfiguration h
  · exact hostSetPc_keepsConfiguration h
  · exact hostResume_keepsConfiguration h
  · exact resumeAction_keepsConfiguration h
  · exact hostResumeRaising_keepsConfiguration h

end Sys2Proof.Machine
end

section
/-! PROOFS. The state's own statements: the end of the program and the pc that never wraps (R37, R111), the host's writes (R214), what of
IPB, WCFG and FINFO a step reads (R40, R42, R44), reset (R51), and the packed configuration words (R40, R42, R43). -/

namespace Sys2Proof.Machine

variable {s t : State}

/-! ### Steps whose outcome is known -/

/-- A RUNNING step at or past the end of the program halts (R111). -/
theorem step_of_ended (hrun : s.status.code = .running) (hl : s.program.length ≤ s.pc) : step s = .next s.halt := by
  simp [step, State.phase, hrun, Nat.not_lt.mpr hl]

/-- An instruction with its checked fields below NREG completes (R122, R192). -/
theorem exec_completes {i : Instr} (h : ∀ q ∈ checkedFields i, q.2 < s.nreg) :
    ∃ t, exec i s = .next t ∧ Completed s t i.fieldC (evaluate s.width s.mirror.regs i) := by
  have hr := Form.check_of_inRange (checkedFields_eq i ▸ h)
  rcases exec_cases i s with ⟨_, _, hf, -⟩ | ⟨-, t, e, hd⟩
  · simp [hr] at hf
  · exact ⟨t, e, by simpa using hd⟩

/-- With a binding a completed step leaves the pc one past the bound register (R120). -/
theorem Completed.pc_of_binding {c v p : Nat} (h : Completed s t c v) (hb : s.binding = some p) : t.pc = t.reg p + 1 := by
  rw [h.pc, nextPc, hb]

/-- Settles O44: the next pc is not truncated, and no program is longer than 2^W. -/
theorem pcNeverWraps : Obligations.PcNeverWraps := by
  unfold Obligations.PcNeverWraps
  intro i s p ⟨_, _, ⟨_, hfits⟩, _⟩ hrun hb hin
  obtain ⟨t, e, hd⟩ := exec_completes hin
  have hpc := hd.pc_of_binding hb
  refine ⟨t, e, hpc, fun hmax => ?_⟩
  have hpow : t.pc = 2 ^ s.width := by rw [hpc, hmax, Nat.sub_add_cancel (Nat.two_pow_pos _)]
  have hlen : t.program.length ≤ t.pc := by rw [hd.program, hpow]; exact hfits
  exact ⟨hpow, hlen, step_of_ended (hd.status ▸ hrun) hlen⟩

/-! ### The host's writes -/

theorem hostWriteReg_of_not_suspended {i v : Nat} (h : s.status.code ≠ .watchHalt) :
    hostWriteReg i v s = .refused .notSuspended := by
  simp [hostWriteReg, h]

theorem hostSetPc_of_not_suspended {n : Nat} (h : s.status.code ≠ .watchHalt) : hostSetPc n s = .refused .notSuspended := by
  simp [hostSetPc, h]

/-- Settles O49: a granted write is `setReg` or `setPc`, whose frames are those of the state's own laws. -/
theorem hostWritesOnlyWhileSuspended : Obligations.HostWritesOnlyWhileSuspended := by
  unfold Obligations.HostWritesOnlyWhileSuspended
  refine ⟨fun s i v hs hi hv => ?_, fun s n hs => ?_, fun s i v n hs => ?_⟩
  · exact ⟨s.setReg i v, hostWriteReg_next_iff.mpr ⟨hs, hi, hv, rfl⟩, State.reg_setReg_same hi v,
      fun j hj => State.reg_setReg_other hj v, State.setReg_nreg s i v, rfl⟩
  · exact hostSetPc_next_iff.mpr ⟨hs, rfl⟩
  · exact ⟨hostWriteReg_of_not_suspended hs, hostSetPc_of_not_suspended hs⟩

/-! ### What a step reads of IPB, WCFG and FINFO

Of IPB a step reads the binding alone, of WCFG the watched register alone, and FINFO not at all. So other contents of the three that
give the same binding and the same watched register go through the step as they are, but for a FINFO that a fault overwrites. -/

/-- `s` with other contents of the registers IPB, WCFG and FINFO. -/
def State.withContents (s : State) (b : Ipb) (w : Wcfg) (f : Finfo) : State := { s with ipb := b, wcfg := w, finfo := f }

/-- FINFO after a step that made `t` of a state whose FINFO was `f`: a fault overwrites it (R44, R191). -/
def recordAfter (t : State) (f : Finfo) : Finfo := if t.status.code = .fault then t.finfo else f

theorem recordAfter_of_fault {f : Finfo} (h : t.status.code = .fault) : recordAfter t f = t.finfo := if_pos h

theorem recordAfter_of_running {f : Finfo} (h : t.status.code = .running) : recordAfter t f = f := if_neg (State.safe_of_running h)

section

variable {b : Ipb} {w : Wcfg} {f : Finfo}

theorem mirror_withContents (hb : (s.withContents b w f).binding = s.binding) :
    (s.withContents b w f).mirror = s.mirror.withContents b w f := by
  cases h : s.binding with
  | none => rw [State.mirror_of_none h, State.mirror_of_none (hb.trans h)]
  | some p => rw [State.mirror_of_some h, State.mirror_of_some (hb.trans h)]; rfl

theorem advance_withContents (hb : (s.withContents b w f).binding = s.binding) :
    (s.withContents b w f).advance = s.advance.withContents b w f := by
  cases h : s.binding with
  | none => rw [State.advance_of_none h, State.advance_of_none (hb.trans h)]; rfl
  | some p => rw [State.advance_of_some h, State.advance_of_some (hb.trans h)]; rfl

theorem watchFires_withContents (hw : (s.withContents b w f).watched = s.watched) (i : Instr) :
    (s.withContents b w f).watchFires i = s.watchFires i := by
  simp only [State.watchFires, hw]

/-- The mirror, the writeback and the next pc of a completed step, under other contents (R117, R119, R120). -/
theorem complete_withContents (hb : (s.withContents b w f).binding = s.binding) (c v : Nat) :
    ((s.withContents b w f).mirror.setReg c v).advance = (s.mirror.setReg c v).advance.withContents b w f := by
  have hwrite : ((s.mirror.setReg c v).withContents b w f).binding = (s.mirror.setReg c v).binding := by
    rw [State.setReg_binding, State.mirror_binding, ← hb]; rfl
  rw [mirror_withContents hb]
  exact advance_withContents hwrite

/-- An instruction under other contents: a fault overwrites FINFO, and a completion carries the contents along (R114, R122). -/
theorem exec_withContents {i : Instr} (hb : (s.withContents b w f).binding = s.binding) (hrun : s.status.code = .running)
    (h : exec i s = .next t) : exec i (s.withContents b w f) = .next (t.withContents b w (recordAfter t f)) := by
  rw [exec_eq_commonStep] at h ⊢
  cases hr : (instrForm i).firstOutOfRange s.nreg with
  | some q =>
    rw [State.commonStep_faults hr, Host.Outcome.next.injEq] at h
    subst h
    exact State.commonStep_faults (s := s.withContents b w f) hr
  | none =>
    have hr' : (instrForm i).firstOutOfRange (s.withContents b w f).nreg = none := hr
    obtain ⟨t', e, hd⟩ := State.commonStep_completes (r := fun x => evaluate s.width x i) hr
    obtain rfl : t = t' := by simpa [h] using e
    simp only [State.commonStep, hr, Host.Outcome.next.injEq] at h
    simp only [State.commonStep, hr', complete_withContents hb]
    rw [recordAfter_of_running (hd.status ▸ hrun), ← h, mirror_withContents hb]
    rfl

/-- A step under other contents with the same binding and the same watched register (R40, R42, R44). -/
theorem step_withContents (hb : (s.withContents b w f).binding = s.binding) (hw : (s.withContents b w f).watched = s.watched)
    (h : step s = .next t) : step (s.withContents b w f) = .next (t.withContents b w (recordAfter t f)) := by
  obtain ⟨hrun, ⟨hl, rfl⟩ | ⟨r, hf, ⟨hfires, rfl⟩ | ⟨hfires, hex⟩⟩⟩ := step_cases h
  · exact step_of_ended (s := s.withContents b w f) hrun hl
  · exact step_of_watchFires (s := s.withContents b w f) hrun hf ((watchFires_withContents hw _).trans hfires)
  · rw [step_of_not_watchFires (s := s.withContents b w f) hrun hf ((watchFires_withContents hw _).trans hfires)]
    exact exec_withContents hb hrun hex

end

/-- A step that does not fault keeps FINFO (log 8). -/
theorem step_recordAfter (h : step s = .next t) : recordAfter t s.finfo = t.finfo := by
  obtain ⟨hrun, rfl | rfl | ⟨_, _, _, -, -, rfl⟩ | ⟨_, -, hd⟩⟩ := step_outcomes h
  · rfl
  · rfl
  · rfl
  · rw [recordAfter_of_running (hd.status ▸ hrun), hd.finfo]

/-- Settles O53: FINFO is one of the contents a step does not read. -/
theorem faultRecordIsNeverRead : Obligations.FaultRecordIsNeverRead := by
  unfold Obligations.FaultRecordIsNeverRead
  refine ⟨fun s t f h => ?_, fun s hs => if_neg hs⟩
  obtain ⟨-, -, hipb, -, hwcfg⟩ := step_keepsConfiguration h
  refine ⟨_, step_withContents (b := s.ipb) (w := s.wcfg) (f := f) rfl rfl h, ?_, recordAfter_of_fault⟩
  rw [← hipb, ← hwcfg]; rfl

/-- A step reads of IPB the binding alone (R38, R40). -/
theorem step_withIpb {b : Ipb} (hb : State.binding { s with ipb := b } = s.binding) (h : step s = .next t) :
    step { s with ipb := b } = .next { t with ipb := b } := by
  obtain ⟨-, -, -, -, hwcfg⟩ := step_keepsConfiguration h
  have ht : t.withContents b s.wcfg (recordAfter t s.finfo) = { t with ipb := b } := by rw [step_recordAfter h, ← hwcfg]; rfl
  exact ht ▸ step_withContents (w := s.wcfg) (f := s.finfo) hb rfl h

/-- A step reads of WCFG the watched register alone (R42). -/
theorem step_withWcfg {w : Wcfg} (hw : State.watched { s with wcfg := w } = s.watched) (h : step s = .next t) :
    step { s with wcfg := w } = .next { t with wcfg := w } := by
  obtain ⟨-, -, hipb, -, -⟩ := step_keepsConfiguration h
  have ht : t.withContents s.ipb w (recordAfter t s.finfo) = { t with wcfg := w } := by rw [step_recordAfter h, ← hipb]; rfl
  exact ht ▸ step_withContents (b := s.ipb) (f := s.finfo) rfl hw h

theorem State.binding_of_disabled (h : s.ipb.en = false) : s.binding = none := by simp [State.binding, h]

theorem State.watched_of_disabled (h : s.wcfg.en = false) : s.watched = none := by simp [State.watched, h]

/-- Settles O54: while EN is 0 no value of IDX makes a binding or a watched register. -/
theorem disabledIndexBitsAreIgnored : Obligations.DisabledIndexBitsAreIgnored := by
  unfold Obligations.DisabledIndexBitsAreIgnored
  exact ⟨fun s t k hen => step_withIpb (State.binding_of_disabled hen).symm,
    fun s t k hen => step_withWcfg (State.watched_of_disabled hen).symm⟩

/-! ### Reset -/

/-- Settles O37, part by part of the invariant. -/
theorem resetIsLegal : Obligations.ResetIsLegal := by
  unfold Obligations.ResetIsLegal
  have hconf : State.reset.ConfigurationLegal := by decide
  have hregs : State.reset.RegistersFit := by decide
  have hprog : State.reset.ProgramFits := by decide
  exact ⟨hconf, hregs, hprog, rfl⟩

/-- Settles O42: reset's program is empty, so its pc is at the end of it. -/
theorem resetIsAnEmptyRun : Obligations.ResetIsAnEmptyRun := by
  unfold Obligations.ResetIsAnEmptyRun
  have hmap : ∀ k : Fin 16, State.reset.map[k] = k := by decide
  exact ⟨rfl, rfl, hmap, step_of_ended rfl (Nat.le_refl 0)⟩

/-! ### The packed words -/

/-- A 4-bit word of an index above an enable bit, as IPB and WCFG are packed (R40, R42). -/
theorem enableIndexWord_fields : ∀ (en : Bool) (idx : Fin 8),
    (BitVec.ofNat 4 (2 * idx + boolWord en)).getLsbD 0 = en ∧
      ((BitVec.ofNat 4 (2 * idx + boolWord en)).extractLsb 3 1).toNat = idx := by decide

/-- Every code of STATUS.CODE and of STATUS.CAUSE stands in its bits of the packed word (R43). -/
theorem Status.word_fields (r : Status) :
    (r.word.extractLsb 1 0).toNat = r.code.number ∧ (r.word.extractLsb 4 2).toNat = r.cause.number := by
  obtain ⟨code, cause⟩ := r
  cases code <;> cases cause <;> decide

/-- Settles O60: the fields of the packed words, and the codes of R43. -/
theorem configurationWordsHaveTheirFields : Obligations.ConfigurationWordsHaveTheirFields := by
  unfold Obligations.ConfigurationWordsHaveTheirFields
  exact ⟨fun r => enableIndexWord_fields r.en r.idx, fun r => enableIndexWord_fields r.en r.idx, Status.word_fields,
    rfl, rfl, rfl, rfl, rfl, rfl⟩

end Sys2Proof.Machine
end

section
/-! PROOFS. The program memory: neither a step nor a service of the host writes it (R63). -/

namespace Sys2Proof.Machine

variable {s t : State}

/-! ### What each operation leaves of the program -/

/-- None of a step's four outcomes writes a slot: halting, suspending and faulting write STATUS and the records beside it, and a completed
instruction writes a register and the pc (R63). -/
theorem step_program (h : step s = .next t) : t.program = s.program := by
  obtain ⟨-, rfl | rfl | ⟨_, _, _, -, -, rfl⟩ | ⟨_, -, hd⟩⟩ := step_outcomes h
  · exact State.halt_program s
  · exact State.suspend_program s
  · rfl
  · exact hd.program

theorem hostWriteReg_program {i v : Nat} (h : hostWriteReg i v s = .next t) : t.program = s.program := by
  obtain ⟨-, -, -, rfl⟩ := hostWriteReg_next_iff.mp h
  exact State.setReg_program s i v

theorem hostSetPc_program {n : Nat} (h : hostSetPc n s = .next t) : t.program = s.program := by
  obtain ⟨-, rfl⟩ := hostSetPc_next_iff.mp h
  exact State.setPc_program s n

theorem hostResume_program (h : hostResume s = .next t) : t.program = s.program := by
  obtain ⟨-, rfl⟩ := hostResume_next_iff.mp h
  rfl

/-- The resume of R197's remark raises the fault that waits, or resumes and steps. -/
theorem hostResumeRaising_program (h : hostResumeRaising s = .next t) : t.program = s.program := by
  obtain ⟨_, _, -, rfl⟩ | ⟨u, hresume, hstep⟩ := hostResumeRaising_cases h
  · rfl
  · exact (step_program hstep).trans (hostResume_program hresume)

/-- The resume action is a register write, a pc write and a resume (R216). -/
theorem resumeAction_program {i n : Nat} (h : resumeAction i n s = .next t) : t.program = s.program := by
  obtain ⟨w, ⟨u, hwrite, hpc⟩, hresume⟩ := resumeAction_next_iff.mp h
  calc t.program = w.program := hostResume_program hresume
    _ = u.program := hostSetPc_program hpc
    _ = s.program := hostWriteReg_program hwrite

/-! ### The obligation -/

/-- Settles O34: the step and each host operation keep the program, by the lemma about each. -/
theorem programNeverChanges : Obligations.ProgramNeverChanges := by
  unfold Obligations.ProgramNeverChanges
  exact ⟨fun _ _ => step_program, fun _ _ _ _ => hostWriteReg_program, fun _ _ _ => hostSetPc_program,
    fun _ _ h => h.elim hostResume_program hostResumeRaising_program, fun _ _ _ _ => resumeAction_program⟩

end Sys2Proof.Machine
end

section
/-! PROOFS. The encoding: the packed word and its bits (R81), the mapping table (R88, R89), encode against decode, and the ids the loader
refuses (R94). -/

namespace Sys2Proof

variable {W w : Nat} {m : Mapping} {r : RawInstr}

/-! ### The packed word -/

/-- A number has at most the `4 + 3W` bits of a packed word exactly when what stands in the place of ID is below 16 (R81). -/
theorem lt_wordBound_iff : w < 2 ^ (4 + 3 * W) ↔ w / 2 ^ (3 * W) < 16 := by
  rw [Nat.div_lt_iff_lt_mul (Nat.two_pow_pos _), pow_add]
  norm_num

/-- The ID bits of a packed word hold no more than a raw id (R81, R94). -/
theorem packWord_id_lt (h : r.wellFormed W = true) : packWord W r / 2 ^ (3 * W) < 16 := by
  obtain ⟨hid, -⟩ := packWord_fields h
  exact hid ▸ r.id.isLt

theorem packWord_lt (h : r.wellFormed W = true) : packWord W r < 2 ^ (4 + 3 * W) :=
  lt_wordBound_iff.mpr (packWord_id_lt h)

/-- The bits of a W-bit field that stands at bit `n` of a number. -/
theorem testBit_of_field {x n v k : Nat} (h : x / 2 ^ n % 2 ^ W = v) (hk : k < W) : x.testBit (n + k) = v.testBit k := by
  rw [← h, Nat.testBit_mod_two_pow, Nat.testBit_div_two_pow, decide_eq_true hk, Bool.true_and, Nat.add_comm]

/-- Settles O2: each quotient and remainder that gives a field back is a range of bits. -/
theorem packedWordBits : Obligations.PackedWordBits := by
  unfold Obligations.PackedWordBits
  intro W r h
  obtain ⟨hid, ha, hb, hc⟩ := packWord_fields h
  have hc0 : packWord W r / 2 ^ 0 % 2 ^ W = r.c := by simpa using hc
  have hid4 : packWord W r / 2 ^ (3 * W) % 2 ^ 4 = r.id := by rw [hid]; exact Nat.mod_eq_of_lt r.id.isLt
  exact ⟨packWord_lt h, fun k hk => by simpa using testBit_of_field hc0 hk, fun k => testBit_of_field hb,
    fun k => testBit_of_field ha, fun k => testBit_of_field hid4⟩

/-! ### Encode against decode -/

theorem decodeWord_of_unpackWord (h : unpackWord W w = .ok r) : decodeWord W m w = .ok (decode m r) := by
  simp [decodeWord, h, Except.map]

theorem encodeWord_of_encode {i : Instr} (h : encode m i = some r) : encodeWord W m i = some (packWord W r) := by
  simp [encodeWord, h]

/-- Every number of at most `4 + 3W` bits is the packed word of a slot (R81). -/
theorem exists_unpackWord (h : w < 2 ^ (4 + 3 * W)) : ∃ r, unpackWord W w = .ok r :=
  ⟨_, dif_pos (lt_wordBound_iff.mp h)⟩

/-- A longer number is no packed word (log 16). -/
theorem unpackWord_of_long (h : 2 ^ (4 + 3 * W) ≤ w) : unpackWord W w = .error (.idOutOfRange (w / 2 ^ (3 * W))) :=
  dif_neg (mt lt_wordBound_iff.mpr h.not_gt)

/-- Settles O3: the slot of an instruction decodes to it (R83, R88, R89), and a packed slot unpacks to itself (R81). -/
theorem encodedInstructionsDecodeToThemselves : Obligations.EncodedInstructionsDecodeToThemselves := by
  unfold Obligations.EncodedInstructionsDecodeToThemselves
  intro W m i hm hi
  obtain ⟨r, hencode, hdecode, hwf⟩ := Laws.Encoding.of_bijection i m hm
  have hr : r.wellFormed W = true := (hwf W).trans hi
  refine ⟨packWord W r, encodeWord_of_encode hencode, packWord_lt hr, ?_⟩
  rw [decodeWord_of_unpackWord (unpackWord_packWord hr), hdecode]

/-- Settles O4: a number within the bound unpacks to a slot, whose packed word it is; what a longer one has for an id is 16 or more. -/
theorem everyPackedWordIsOneInstruction : Obligations.EveryPackedWordIsOneInstruction := by
  unfold Obligations.EveryPackedWordIsOneInstruction
  intro W m hm
  refine ⟨fun w hw => ?_, fun w hw => ⟨w / 2 ^ (3 * W), ?_, ?_⟩⟩
  · obtain ⟨r, hr⟩ := exists_unpackWord hw
    obtain ⟨hwf, hpack⟩ := unpackWord_ok hr
    refine ⟨decode m r, decodeWord_of_unpackWord hr, (decode_wellFormed W m r).trans hwf, ?_⟩
    rw [encodeWord_of_encode (encode_decode hm r), hpack]
  · exact Nat.not_lt.mp (mt lt_wordBound_iff.mpr hw.not_gt)
  · simp [decodeWord, unpackWord_of_long hw, Except.map]

/-- Settles O1: words written in the spec's programs, as `decodeWord` computes them. -/
theorem specWordsDecode : Obligations.SpecWordsDecode := by
  unfold Obligations.SpecWordsDecode
  decide

/-! ### The mapping table -/

/-- Under a bijective MAP the id found for an opcode is the only one that denotes it (R89). -/
theorem Mapping.existsUnique_id_of_bijection (h : m.isBijection = true) (op : Opcode) : ∃! id : Fin 16, m.opcode id = op := by
  obtain ⟨id, hid⟩ := Mapping.idOf_exists h op
  refine ⟨id, Mapping.idOf_spec hid, fun k hk => ?_⟩
  have hfound : m.idOf? op = some k := hk ▸ Mapping.idOf_opcode h k
  exact Option.some.inj (hfound.symm.trans hid)

/-- MAP reaches every code when some id denotes each opcode (R84, R89). -/
theorem Mapping.isBijection_of_denotes (h : ∀ op : Opcode, ∃ id : Fin 16, m.opcode id = op) : m.isBijection = true := by
  refine Mapping.isBijection_of_surjective fun code => ?_
  obtain ⟨id, hid⟩ := h (Opcode.ofCode code)
  exact ⟨id, Opcode.ofCode_injective hid⟩

end Sys2Proof

namespace Sys2Proof.Machine

/-! ### The launch's refusals -/

theorem launch_of_refusal {a : LaunchArgs} {f : Finfo} {r : Refusal} (h : a.refusal? = some r) : launch a f = .refused r := by
  simp [launch, h]

theorem launch_of_loadProgram_error {a : LaunchArgs} {f : Finfo} {k : Nat} {e : DecodeError} (h : a.refusal? = none)
    (hload : loadProgram a.width 0 a.program = .error (k, e)) : launch a f = .refused (.badInstruction k e) := by
  simp [launch, h, hload]

/-- Settles O5: a bijective MAP has one id for each opcode, and any other fails the launch's check of it. -/
theorem bijectiveMappingDenotesEachOpcodeOnce : Obligations.BijectiveMappingDenotesEachOpcodeOnce := by
  unfold Obligations.BijectiveMappingDenotesEachOpcodeOnce
  refine ⟨fun m => ⟨Mapping.existsUnique_id_of_bijection, fun h => Mapping.isBijection_of_denotes fun op => (h op).exists⟩,
    fun a f hmap => ?_⟩
  cases h : a.refusal? with
  | some r => exact ⟨r, launch_of_refusal h⟩
  | none =>
    obtain ⟨-, -, -, -, -, -, hbij⟩ := refusal_none_iff.mp h
    simp [hbij] at hmap

/-- Settles O6: the loader stops at the first tuple that does not load, and a wide id is checked before the fields. -/
theorem wideIdsAreRefusedByIndex : Obligations.WideIdsAreRefusedByIndex := by
  unfold Obligations.WideIdsAreRefusedByIndex
  refine ⟨fun a f k t hchecks ht hid hbefore => ?_, fun _ _ => packWord_id_lt⟩
  have hload : loadProgram a.width 0 a.program = .error (0 + k, .idOutOfRange t.id) :=
    loadProgram_error ht (load_wideId hid) hbefore
  exact launch_of_loadProgram_error hchecks (Nat.zero_add k ▸ hload)

end Sys2Proof.Machine
end

section
/-! PROOFS. Sample consistency (R97) against the execution of one unbound instruction, and the operand that setr and seti ignore (R87). -/

namespace Sys2Proof.Machine

variable {s : State} {i : Instr}

/-! ### An unbound instruction -/

/-- A failing range check faults the instruction (R114). -/
theorem exec_of_outOfRange {field : FieldName} {v : Nat} (h : (instrForm i).firstOutOfRange s.nreg = some (field, v)) :
    exec i s = .next (faulted s field v) := by
  rw [exec_eq_commonStep, State.commonStep_faults h]

/-- Without a binding a completed instruction is its writeback and the pc's increment (R119, R121). -/
theorem exec_of_unbound (hb : s.binding = none) (h : (instrForm i).firstOutOfRange s.nreg = none) :
    exec i s = .next ((s.setReg i.fieldC (evaluate s.width s.regs i)).setPc (s.pc + 1)) := by
  simp [exec_eq_commonStep, State.commonStep, h, State.mirror_of_none hb, State.advance_of_none, hb]

/-! ### Sample consistency -/

/-- The consistency predicate is a passed range check and the writeback (R97). -/
theorem Sample.consistent_iff {W : Nat} {op : Opcode} {t : Sample} :
    t.consistent W op = true ↔
      (instrForm (op.instr t.raw.a t.raw.b t.raw.c)).firstOutOfRange t.pre.length = none ∧
        t.pre.set t.raw.c (evaluate W t.pre (op.instr t.raw.a t.raw.b t.raw.c)) = t.post := by
  simp [Sample.consistent]

/-- Settles O56: a failing range check is inconsistent and leaves RUNNING; a passed one leaves the written file. -/
theorem sampleConsistencyIsOneUnboundInstruction : Obligations.SampleConsistencyIsOneUnboundInstruction := by
  unfold Obligations.SampleConsistencyIsOneUnboundInstruction
  intro s op t hb hrun hregs
  have hn : s.nreg = t.pre.length := congrArg List.length hregs
  rw [Sample.consistent_iff, ← hn]
  cases h : (instrForm (op.instr t.raw.a t.raw.b t.raw.c)).firstOutOfRange s.nreg with
  | some q => simp [exec_of_outOfRange h, faulted]
  | none => simp [exec_of_unbound hb h, hrun, hregs]

/-- Settles O57: the 16 opcodes on the source's sample, as `Sample.consistent` computes them. -/
theorem sourceSampleHasThreeCandidates : Obligations.SourceSampleHasThreeCandidates := by
  unfold Obligations.SourceSampleHasThreeCandidates
  decide

/-! ### The ignored operand -/

/-- Settles O55: `assignStep` is given neither B nor a form that holds it. -/
theorem assignIgnoresOperandB : Obligations.AssignIgnoresOperandB := by
  unfold Obligations.AssignIgnoresOperandB
  intro a b b' c s
  exact ⟨rfl, rfl, rfl, rfl, rfl, rfl⟩

end Sys2Proof.Machine
end

section
/-! PROOFS. The execution of one instruction (R115 to R129): what it computes and where it leaves the pc. -/

namespace Sys2Proof.Machine

variable {s t : State} {i : Instr}

/-! ### What an executed instruction leaves -/

/-- A next state that an instruction answers is that of its fault or of its completion (R114, R122). -/
theorem exec_outcomes (h : exec i s = .next t) :
    (∃ field v, t = faulted s field v) ∨ Completed s t i.fieldC (evaluate s.width s.mirror.regs i) := by
  rcases exec_cases i s with ⟨field, v, -, e⟩ | ⟨-, t', e, hd⟩
  · exact .inl ⟨field, v, by simpa [h] using e⟩
  · obtain rfl : t = t' := by simpa [h] using e
    exact .inr (by simpa using hd)

/-- An instruction faults or keeps the run status: none halts or suspends (R190, R201). -/
theorem exec_code (h : exec i s = .next t) : t.status.code = .fault ∨ t.status.code = s.status.code := by
  obtain ⟨_, _, rfl⟩ | hd := exec_outcomes h
  · exact .inl rfl
  · exact .inr (congrArg Status.code hd.status)

/-- Settles O27: the file the mirror leaves is `s.mirrored`. -/
theorem instructionsComputeOnTheMirroredFile : Obligations.InstructionsComputeOnTheMirroredFile := by
  unfold Obligations.InstructionsComputeOnTheMirroredFile
  intro i s hin
  rw [mirrored_eq]
  exact exec_completes hin

/-! ### The next pc -/

theorem State.source_of_bound {p : Nat} (hb : s.binding = some p) : s.source p = s.pc := if_pos hb

theorem State.source_of_other {p q : Nat} (hb : s.binding = some p) (hq : q ≠ p) : s.source q = s.reg q :=
  if_neg (by simpa [hb] using hq.symm)

/-- Without a binding a completed step leaves the pc at the next slot (R121). -/
theorem Completed.pc_of_unbound {c v : Nat} (h : Completed s t c v) (hb : s.binding = none) : t.pc = s.pc + 1 := by
  rw [h.pc, nextPc, hb]

/-- The next pc is a successor, with a binding and without (R120, R121). -/
theorem Completed.pc_ne_zero {c v : Nat} (h : Completed s t c v) : t.pc ≠ 0 := by
  cases hb : s.binding with
  | none => simp [h.pc_of_unbound hb]
  | some p => simp [h.pc_of_binding hb]

/-- Settles O43: the next pc by the binding, whose register only the writeback can take from the mirrored pc. -/
theorem nextPcOfEveryInstruction : Obligations.NextPcOfEveryInstruction := by
  unfold Obligations.NextPcOfEveryInstruction
  intro i s hin
  obtain ⟨t, e, hd⟩ := exec_completes hin
  refine ⟨t, e, hd.pc_of_unbound, fun p hb => ⟨hd.pc_of_binding hb, fun hc hp => ?_⟩⟩
  rw [hd.others p hc.symm hp, State.source_of_bound hb]

/-! ### Jumps -/

/-- An instruction whose destination is the bound register continues one past its result (R119, R120, R126). -/
theorem exec_jumps (hb : s.binding = some i.fieldC) (hin : ∀ q ∈ checkedFields i, q.2 < s.nreg) :
    ∃ t, exec i s = .next t ∧ t.pc = evaluate s.width s.mirror.regs i + 1 := by
  obtain ⟨t, e, hd⟩ := exec_completes hin
  exact ⟨t, e, by rw [hd.pc_of_binding hb, hd.destination]⟩

theorem adder_of_lt {W a b : Nat} (h : a + b < 2 ^ W) : adder W a b = a + b := Nat.mod_eq_of_lt h

/-- Settles O45: the result of each jump on the mirrored file; every next pc is a successor. -/
theorem writesToTheBoundRegisterJump : Obligations.WritesToTheBoundRegisterJump := by
  unfold Obligations.WritesToTheBoundRegisterJump
  refine ⟨fun s p hb hp => ?_, fun i s hin => ?_⟩
  · have hpc : readReg s.mirror.regs p = s.pc := (readReg_mirror hp).trans (State.source_of_bound hb)
    have hother : ∀ {q}, q ≠ p → q < s.nreg → readReg s.mirror.regs q = s.reg q := fun hq hlt =>
      (readReg_mirror hlt).trans (State.source_of_other hb hq)
    refine ⟨fun k b => ?_, fun q b hq hlt => ?_, fun k hk => ?_, fun q hq hlt hk => ?_⟩
    · exact exec_jumps (i := .seti k b p) hb (by simpa [checkedFields] using hp)
    · rw [← hother hq hlt]
      exact exec_jumps (i := .setr q b p) hb (by simp [checkedFields, hp, hlt])
    · rw [← adder_of_lt hk, ← hpc]
      exact exec_jumps (i := .addi p k p) hb (by simp [checkedFields, hp])
    · rw [← adder_of_lt hk, ← hpc, ← hother hq hlt]
      exact exec_jumps (i := .addr p q p) hb (by simp [checkedFields, hp, hlt])
  · obtain ⟨t, e, hd⟩ := exec_completes hin
    exact ⟨t, e, hd.pc_ne_zero⟩

end Sys2Proof.Machine
end

section
/-! PROOFS. One step of the core (R110): the end of the program, the watch-halt test, and the decoded instruction. -/

namespace Sys2Proof.Machine

variable {s t : State} {i : Instr}

/-! ### The watch-halt test -/

/-- The watch-halt test over the fields of WCFG (R42, R211). -/
theorem watchFires_iff_wcfg :
    s.watchFires i = true ↔ s.wcfg.en = true ∧ ∃ p ∈ checkedFields i, p.2 = s.wcfg.idx := by
  rw [watchFires_iff]
  cases hen : s.wcfg.en <;> simp [State.watched, hen]

theorem watchFires_of_disabled (h : s.wcfg.en = false) : s.watchFires i = false := by
  simp [State.watchFires, State.watched_of_disabled h]

theorem watchFires_of_untouched (h : ∀ w, s.watched = some w → (instrForm i).touches w = false) :
    s.watchFires i = false := by
  cases hw : s.watched with
  | none => simp [State.watchFires, hw]
  | some w => simpa [State.watchFires, hw] using h w hw

/-- Settles O28: without a touch of a watched register the test does not fire. -/
theorem stepRunsTheDecodedInstruction : Obligations.StepRunsTheDecodedInstruction := by
  unfold Obligations.StepRunsTheDecodedInstruction
  intro s r hrun hf hw
  exact step_of_not_watchFires hrun hf (watchFires_of_untouched hw)

/-- Settles O48: the test fires before the instruction executes, and an instruction does not suspend. -/
theorem watchHaltComesBeforeTheInstruction : Obligations.WatchHaltComesBeforeTheInstruction := by
  unfold Obligations.WatchHaltComesBeforeTheInstruction
  refine ⟨fun s r hrun hen hf htouch => ?_, fun s t h hwatch => ?_⟩
  · exact step_of_watchFires hrun hf (watchFires_iff_wcfg.mpr ⟨hen, htouch⟩)
  · obtain ⟨hrun, ⟨-, rfl⟩ | ⟨r, hf, ⟨hfires, rfl⟩ | ⟨-, hex⟩⟩⟩ := step_cases h
    · cases hwatch
    · obtain ⟨hen, htouch⟩ := watchFires_iff_wcfg.mp hfires
      exact ⟨rfl, hen, r, hf, htouch⟩
    · have hcode := exec_code hex
      simp [hwatch, hrun] at hcode

/-- An instruction does the same under any watch policy (R132). -/
theorem exec_withWcfg {w : Wcfg} (hrun : s.status.code = .running) (h : exec i s = .next t) :
    exec i { s with wcfg := w } = .next { t with wcfg := w } := by
  have ht : t.withContents s.ipb w (recordAfter t s.finfo) = { t with wcfg := w } := by
    obtain ⟨_, _, rfl⟩ | hd := exec_outcomes h
    · rfl
    · rw [recordAfter_of_running (hd.status ▸ hrun), ← hd.finfo, ← hd.ipb]; rfl
  exact ht ▸ exec_withContents (w := w) (f := s.finfo) rfl hrun h

/-- Settles O52: a step that does not suspend ends the program or executes its instruction, under either policy. -/
theorem watchingChangesNothingButTheSuspension : Obligations.WatchingChangesNothingButTheSuspension := by
  unfold Obligations.WatchingChangesNothingButTheSuspension
  intro s t k h hsuspend
  obtain ⟨hrun, ⟨hl, rfl⟩ | ⟨r, hf, ⟨-, rfl⟩ | ⟨-, hex⟩⟩⟩ := step_cases h
  · exact step_of_ended (s := { s with wcfg := ⟨false, k⟩ }) hrun hl
  · exact absurd rfl hsuspend
  · rw [step_of_not_watchFires (s := { s with wcfg := ⟨false, k⟩ }) hrun hf (watchFires_of_disabled rfl)]
    exact exec_withWcfg hrun hex

/-! ### What a step writes -/

/-- A RUNNING core always takes a step (R190). -/
theorem step_enabled (hrun : s.status.code = .running) : ∃ t, step s = .next t := by
  by_cases hl : s.program.length ≤ s.pc
  · exact ⟨_, step_of_ended hrun hl⟩
  · have hf : s.program[s.pc]? = some s.program[s.pc] := List.getElem?_eq_getElem (Nat.not_le.mp hl)
    cases hfires : s.watchFires (decode s.map s.program[s.pc]) with
    | true => exact ⟨_, step_of_watchFires hrun hf hfires⟩
    | false =>
      rw [step_of_not_watchFires hrun hf hfires]
      rcases exec_cases (decode s.map s.program[s.pc]) s with ⟨_, _, -, e⟩ | ⟨-, t, e, -⟩
      · exact ⟨_, e⟩
      · exact ⟨t, e⟩

/-- Settles O30: past the end a step is `State.halt`; before it, a suspension or an instruction, and neither halts. -/
theorem programEndHaltsAndNothingElseDoes : Obligations.ProgramEndHaltsAndNothingElseDoes := by
  unfold Obligations.ProgramEndHaltsAndNothingElseDoes
  refine fun s hrun => ⟨step_of_ended hrun, fun hl => ?_⟩
  obtain ⟨t, h⟩ := step_enabled hrun
  refine ⟨t, h, fun hhalt => ?_⟩
  obtain ⟨-, ⟨hend, -⟩ | ⟨r, -, ⟨-, rfl⟩ | ⟨-, hex⟩⟩⟩ := step_cases h
  · exact absurd hl (Nat.not_lt.mpr hend)
  · cases hhalt
  · have hcode := exec_code hex
    simp [hhalt, hrun] at hcode

/-- A step stops the run and writes nothing but STATUS and the records of a fault and a suspension, or it completes its instruction and
stays RUNNING (R122). -/
theorem step_stops_or_completes (h : step s = .next t) :
    (t.status.code ≠ .running ∧ t = { s with status := t.status, finfo := t.finfo, suspension := t.suspension }) ∨
    (t.status.code = .running ∧ ∃ r, s.program[s.pc]? = some r ∧
      Completed s t (decode s.map r).fieldC (evaluate s.width s.mirror.regs (decode s.map r))) := by
  obtain ⟨hrun, rfl | rfl | ⟨_, _, _, -, -, rfl⟩ | ⟨r, hf, hd⟩⟩ := step_outcomes h
  · exact .inl ⟨nofun, rfl⟩
  · exact .inl ⟨nofun, rfl⟩
  · exact .inl ⟨nofun, rfl⟩
  · exact .inr ⟨hd.status ▸ hrun, r, hf, hd⟩

/-- Settles O33: the two sides of `step_stops_or_completes`, told apart by the run status. -/
theorem stepsAreIndivisible : Obligations.StepsAreIndivisible := by
  unfold Obligations.StepsAreIndivisible
  intro s t h
  rw [mirrored_eq]
  obtain ⟨hstop, hframe⟩ | ⟨hrun, hcompleted⟩ := step_stops_or_completes h
  · exact ⟨fun _ => hframe ▸ ⟨rfl, rfl, rfl, rfl, rfl, rfl, rfl⟩, fun hrun => absurd hrun hstop⟩
  · exact ⟨fun hstop => absurd hrun hstop, fun _ => hcompleted⟩

/-- Settles O31: the empty program loads as no slots, so pc 0 is at its end. -/
theorem emptyProgramHaltsUnchanged : Obligations.EmptyProgramHaltsUnchanged := by
  unfold Obligations.EmptyProgramHaltsUnchanged
  intro a f s hempty hlaunch
  obtain ⟨-, rs, hload, -, rfl⟩ := launch_next_iff.mp hlaunch
  obtain rfl : rs = [] := by simpa [hempty, loadProgram, eq_comm] using hload
  exact ⟨_, step_of_ended rfl (Nat.le_refl 0), rfl, rfl, rfl⟩

end Sys2Proof.Machine
end

section
/-! PROOFS. Runs bounded by fuel (R132, R134, R195): the verdict is that of the run status, more fuel keeps it, and an unbound run
ends. -/

namespace Sys2Proof.Machine

variable {s t : State} {n : Nat}

/-! ### The verdict of a run -/

/-- The verdict by which a run reports the run status it stops in (R190, R195). -/
def RunCode.verdict : RunCode → Verdict
  | .running => .outOfFuel
  | .halted => .halted
  | .watchHalt => .suspended
  | .fault => .faulted

theorem RunCode.verdict_injective : Function.Injective RunCode.verdict := by
  intro c d
  cases c <;> cases d <;> decide

theorem RunCode.verdict_ne_stuck (c : RunCode) : c.verdict ≠ .stuck := by cases c <;> decide

theorem runFuel_zero (s : State) : runFuel 0 s = (s.status.code.verdict, s) := by
  cases h : s.status.code <;> simp [runFuel, h, RunCode.verdict]

/-- A run reports the status of the state it ends in. -/
theorem runFuel_verdict (n : Nat) (s : State) : (runFuel n s).1 = (runFuel n s).2.status.code.verdict := by
  induction n generalizing s with
  | zero => rw [runFuel_zero]
  | succ n ih =>
    by_cases hrun : s.status.code = .running
    · obtain ⟨t, h⟩ := step_enabled hrun
      rw [runFuel_succ hrun h]
      exact ih t
    · rw [runFuel_of_not_running hrun, runFuel_zero]

/-- A run that ended before its fuel was spent is the same under more fuel (R195). -/
theorem runFuel_add (k : Nat) (h : (runFuel n s).1 ≠ .outOfFuel) : runFuel (n + k) s = runFuel n s := by
  induction n generalizing s with
  | zero =>
    refine runFuel_of_not_running fun hrun => h ?_
    rw [runFuel_zero, hrun, RunCode.verdict]
  | succ n ih =>
    by_cases hrun : s.status.code = .running
    · obtain ⟨t, e⟩ := step_enabled hrun
      rw [runFuel_succ hrun e] at h
      rw [Nat.succ_add, runFuel_succ hrun e, runFuel_succ hrun e, ih h]
    · exact (runFuel_of_not_running hrun).trans (runFuel_of_not_running hrun).symm

/-- Settles O58: each verdict is that of one run status. -/
theorem fuelDoesNotChangeAVerdict : Obligations.FuelDoesNotChangeAVerdict := by
  unfold Obligations.FuelDoesNotChangeAVerdict
  intro n k s
  have hcode : ∀ c : RunCode, (runFuel n s).1 = c.verdict → (runFuel n s).2.status.code = c := fun _ h =>
    RunCode.verdict_injective ((runFuel_verdict n s).symm.trans h)
  exact ⟨hcode .running, runFuel_add k, hcode .halted, hcode .fault, hcode .watchHalt, runFuel_verdict n s ▸ RunCode.verdict_ne_stuck _⟩

/-! ### Runs without a binding -/

/-- A RUNNING core without a binding stops, or moves on to the next slot without a binding and still RUNNING (R121, R126). -/
theorem step_of_unbound (hb : s.binding = none) (h : step s = .next t) :
    t.status.code ≠ .running ∨
      (t.status.code = .running ∧ t.binding = none ∧ t.program = s.program ∧ s.pc < s.program.length ∧ t.pc = s.pc + 1) := by
  obtain ⟨hstop, -⟩ | ⟨hrun, r, hf, hd⟩ := step_stops_or_completes h
  · exact .inl hstop
  · obtain ⟨hpc, -⟩ := List.getElem?_eq_some_iff.mp hf
    exact .inr ⟨hrun, hd.binding.trans hb, hd.program, hpc, hd.pc_of_unbound hb⟩

/-- With more fuel than instructions left a run without a binding stops: each step that stays RUNNING leaves one fewer. -/
theorem runFuel_stops_of_unbound (hb : s.binding = none) (hrun : s.status.code = .running)
    (hn : s.program.length - s.pc < n) : (runFuel n s).2.status.code ≠ .running := by
  induction n generalizing s with
  | zero => omega
  | succ n ih =>
    obtain ⟨t, h⟩ := step_enabled hrun
    rw [runFuel_succ hrun h]
    obtain hstop | ⟨hrun', hb', hprog, hlt, hpc⟩ := step_of_unbound hb h
    · rwa [runFuel_of_not_running hstop, runFuel_zero]
    · exact ih hb' hrun' (by rw [hprog, hpc]; omega)

/-- Settles O46: the run stops, and a stopped run reports one of the three verdicts. -/
theorem unboundRunsEnd : Obligations.UnboundRunsEnd := by
  unfold Obligations.UnboundRunsEnd
  intro s hb hrun
  have hstop := runFuel_stops_of_unbound hb hrun (Nat.lt_succ_self _)
  rw [runFuel_verdict]
  cases hc : (runFuel (s.program.length - s.pc + 1) s).2.status.code with
  | running => exact absurd hc hstop
  | halted => decide
  | watchHalt => decide
  | fault => decide

end Sys2Proof.Machine
end

section
/-! PROOFS. The arithmetic family (R140 to R143), on rules about the checked fields that hold of every instruction with the same ones
(R192). -/

namespace Sys2Proof.Machine

variable {s : State} {i : Instr} {v : Nat}

/-! ### An instruction by its code and its checked fields -/

/-- A slot whose id MAP maps to an opcode's code decodes to that opcode's instruction (R84, R88). -/
theorem decode_of_code {m : Mapping} {r : RawInstr} {op : Opcode} (h : m[r.id] = op.code) :
    decode m r = op.instr r.a r.b r.c := by
  rw [decode, Mapping.opcode, h, Opcode.ofCode_code]

/-- An instruction faults at the first of its checked fields that is not below NREG (R114, R192). -/
theorem exec_of_firstChecked {field : FieldName} {u : Nat}
    (h : (checkedFields i).find? (fun q => decide (s.nreg ≤ q.2)) = some (field, u)) :
    exec i s = .next (faulted s field u) := by
  rw [checkedFields_eq] at h
  exact exec_of_outOfRange h

/-- An instruction with its checked fields below NREG completes with its result on the mirrored file, however that is written. -/
theorem exec_completes_with (hin : ∀ q ∈ checkedFields i, q.2 < s.nreg) (hv : evaluate s.width s.mirror.regs i = v) :
    ∃ t, exec i s = .next t ∧ Completed s t i.fieldC v :=
  hv ▸ exec_completes hin

/-- The completion and the faults of an instruction that checks one source register and its destination, in that order (R192). -/
theorem exec_of_one_source {field : FieldName} {a : Nat} (hi : checkedFields i = [(field, a), (.c, i.fieldC)])
    (hv : a < s.nreg → evaluate s.width s.mirror.regs i = v) :
    (a < s.nreg → i.fieldC < s.nreg → ∃ t, exec i s = .next t ∧ Completed s t i.fieldC v) ∧
    (s.nreg ≤ a → exec i s = .next (faulted s field a)) ∧
    (a < s.nreg → s.nreg ≤ i.fieldC → exec i s = .next (faulted s .c i.fieldC)) := by
  refine ⟨fun ha hc => ?_, fun ha => ?_, fun ha hc => ?_⟩
  · exact exec_completes_with (by simp [hi, ha, hc]) (hv ha)
  · exact exec_of_firstChecked (by simp [hi, ha])
  · exact exec_of_firstChecked (by simp [hi, ha, hc])

/-- The completion and the faults of an instruction that checks the source registers A and B and its destination (R192). -/
theorem exec_of_two_sources {a b : Nat} (hi : checkedFields i = [(.a, a), (.b, b), (.c, i.fieldC)])
    (hv : a < s.nreg → b < s.nreg → evaluate s.width s.mirror.regs i = v) :
    (a < s.nreg → b < s.nreg → i.fieldC < s.nreg → ∃ t, exec i s = .next t ∧ Completed s t i.fieldC v) ∧
    (s.nreg ≤ a → exec i s = .next (faulted s .a a)) ∧
    (a < s.nreg → s.nreg ≤ b → exec i s = .next (faulted s .b b)) ∧
    (a < s.nreg → b < s.nreg → s.nreg ≤ i.fieldC → exec i s = .next (faulted s .c i.fieldC)) := by
  refine ⟨fun ha hb hc => ?_, fun ha => ?_, fun ha hb => ?_, fun ha hb hc => ?_⟩
  · exact exec_completes_with (by simp [hi, ha, hb, hc]) (hv ha hb)
  · exact exec_of_firstChecked (by simp [hi, ha])
  · exact exec_of_firstChecked (by simp [hi, ha, hb])
  · exact exec_of_firstChecked (by simp [hi, ha, hb, hc])

/-! ### The obligations -/

/-- Settles O7: addr checks two sources, and its result is the adder's on them as the mirror leaves them. -/
theorem addrWritesTheWrappedSum : Obligations.AddrWritesTheWrappedSum := by
  unfold Obligations.AddrWritesTheWrappedSum
  refine ⟨fun m r => decode_of_code (op := .addr), fun s a b c => ?_⟩
  exact exec_of_two_sources (i := .addr a b c) rfl fun ha hb =>
    congrArg₂ (adder s.width) (readReg_mirror ha) (readReg_mirror hb)

/-- Settles O8: addi checks one source, and its result is the adder's on that register and B. -/
theorem addiWritesTheWrappedSum : Obligations.AddiWritesTheWrappedSum := by
  unfold Obligations.AddiWritesTheWrappedSum
  refine ⟨fun m r => decode_of_code (op := .addi), fun s a b c => ?_⟩
  exact exec_of_one_source (i := .addi a b c) rfl fun ha => congrArg (adder s.width · b) (readReg_mirror ha)

/-- Settles O9: mulr checks two sources, and its result is the multiplier's on them as the mirror leaves them. -/
theorem mulrWritesTheLowProduct : Obligations.MulrWritesTheLowProduct := by
  unfold Obligations.MulrWritesTheLowProduct
  refine ⟨fun m r => decode_of_code (op := .mulr), fun s a b c => ?_⟩
  exact exec_of_two_sources (i := .mulr a b c) rfl fun ha hb =>
    congrArg₂ (multiplier s.width) (readReg_mirror ha) (readReg_mirror hb)

/-- Settles O10: muli checks one source, and its result is the multiplier's on that register and B. -/
theorem muliWritesTheLowProduct : Obligations.MuliWritesTheLowProduct := by
  unfold Obligations.MuliWritesTheLowProduct
  refine ⟨fun m r => decode_of_code (op := .muli), fun s a b c => ?_⟩
  exact exec_of_one_source (i := .muli a b c) rfl fun ha => congrArg (multiplier s.width · b) (readReg_mirror ha)

end Sys2Proof.Machine
end

section
/-! PROOFS. The bitwise family (R150 to R154): AND and OR on the operands as the mirror leaves them, and the bits and the
bounds of the word they write. -/

namespace Sys2Proof.Machine

variable {s t : State} {c x y : Nat}

/-! ### The word a completed AND or OR writes -/

/-- A step that writes an AND writes it bit by bit, and no larger than either operand (R150). -/
theorem Completed.bits_of_and (h : Completed s t c (x &&& y)) :
    (∀ k, (t.reg c).testBit k = (x.testBit k && y.testBit k)) ∧ t.reg c ≤ x ∧ t.reg c ≤ y := by
  rw [h.destination]
  exact ⟨Nat.testBit_and x y, Nat.and_le_left, Nat.and_le_right⟩

/-- A step that writes an OR writes it bit by bit, and within any width both operands have (R152, R154). -/
theorem Completed.bits_of_or {W : Nat} (h : Completed s t c (x ||| y)) :
    (∀ k, (t.reg c).testBit k = (x.testBit k || y.testBit k)) ∧ (x < 2 ^ W → y < 2 ^ W → t.reg c < 2 ^ W) := by
  rw [h.destination]
  exact ⟨Nat.testBit_or x y, Nat.or_lt_two_pow⟩

/-! ### The obligations -/

/-- Settles O11: banr checks two sources, and its result is the AND of them as the mirror leaves them. -/
theorem banrWritesTheAnd : Obligations.BanrWritesTheAnd := by
  unfold Obligations.BanrWritesTheAnd
  refine ⟨fun m r => decode_of_code (op := .banr), fun s a b c => ?_⟩
  exact exec_of_two_sources (i := .banr a b c) rfl fun ha hb =>
    congrArg₂ andUnit (readReg_mirror ha) (readReg_mirror hb)

/-- Settles O12: bani checks one source, and its result is the AND of that register and B. -/
theorem baniWritesTheAnd : Obligations.BaniWritesTheAnd := by
  unfold Obligations.BaniWritesTheAnd
  refine ⟨fun m r => decode_of_code (op := .bani), fun s a b c => ?_⟩
  exact exec_of_one_source (i := .bani a b c) rfl fun ha => congrArg (andUnit · b) (readReg_mirror ha)

/-- Settles O13: borr checks two sources, and its result is the OR of them as the mirror leaves them. -/
theorem borrWritesTheOr : Obligations.BorrWritesTheOr := by
  unfold Obligations.BorrWritesTheOr
  refine ⟨fun m r => decode_of_code (op := .borr), fun s a b c => ?_⟩
  exact exec_of_two_sources (i := .borr a b c) rfl fun ha hb =>
    congrArg₂ orUnit (readReg_mirror ha) (readReg_mirror hb)

/-- Settles O14: bori checks one source, and its result is the OR of that register and B. -/
theorem boriWritesTheOr : Obligations.BoriWritesTheOr := by
  unfold Obligations.BoriWritesTheOr
  refine ⟨fun m r => decode_of_code (op := .bori), fun s a b c => ?_⟩
  exact exec_of_one_source (i := .bori a b c) rfl fun ha => congrArg (orUnit · b) (readReg_mirror ha)

/-- Settles O24: each of the four instructions completes with the AND or the OR of its operands in x[C], whose bits and bounds are
then those of the operation. -/
theorem logicResultsWorkBitByBit : Obligations.LogicResultsWorkBitByBit := by
  unfold Obligations.LogicResultsWorkBitByBit
  intro s a b c ha hc
  obtain ⟨hbanr, -⟩ := banrWritesTheAnd.2 s a b c
  obtain ⟨hbani, -⟩ := baniWritesTheAnd.2 s a b c
  obtain ⟨hborr, -⟩ := borrWritesTheOr.2 s a b c
  obtain ⟨hbori, -⟩ := boriWritesTheOr.2 s a b c
  refine ⟨fun hb => ?_, ?_, fun hb => ?_, ?_⟩
  · exact (hbanr ha hb hc).imp fun _ => And.imp_right Completed.bits_of_and
  · exact (hbani ha hc).imp fun _ => And.imp_right Completed.bits_of_and
  · exact (hborr ha hb hc).imp fun _ => And.imp_right Completed.bits_of_or
  · exact (hbori ha hc).imp fun _ => And.imp_right Completed.bits_of_or

end Sys2Proof.Machine
end

section
/-! PROOFS. The assign family (R160, R161): the result is operand A, and field B is not among the checked fields (R87). -/

namespace Sys2Proof.Machine

variable {s : State} {i : Instr} {v : Nat}

/-- The completion and the fault of an instruction that checks no field but its destination (R192). -/
theorem exec_of_no_source (hi : checkedFields i = [(.c, i.fieldC)]) (hv : evaluate s.width s.mirror.regs i = v) :
    (i.fieldC < s.nreg → ∃ t, exec i s = .next t ∧ Completed s t i.fieldC v) ∧
    (s.nreg ≤ i.fieldC → exec i s = .next (faulted s .c i.fieldC)) := by
  refine ⟨fun hc => ?_, fun hc => ?_⟩
  · exact exec_completes_with (by simp [hi, hc]) hv
  · exact exec_of_firstChecked (by simp [hi, hc])

/-- Settles O15: setr checks one source, and its result is that register as the mirror leaves it. -/
theorem setrCopiesTheRegister : Obligations.SetrCopiesTheRegister := by
  unfold Obligations.SetrCopiesTheRegister
  refine ⟨fun m r => decode_of_code (op := .setr), fun s a b c => ?_⟩
  exact exec_of_one_source (i := .setr a b c) rfl readReg_mirror

/-- Settles O16: seti checks its destination alone, and its result is field A, whatever the registers hold. -/
theorem setiWritesTheImmediate : Obligations.SetiWritesTheImmediate := by
  unfold Obligations.SetiWritesTheImmediate
  refine ⟨fun m r => decode_of_code (op := .seti), fun s a b c => ?_⟩
  exact exec_of_no_source (i := .seti a b c) rfl rfl

end Sys2Proof.Machine
end

section
/-! PROOFS. The comparison family (R170 to R176): the comparators' words on the operands as the mirror leaves them, and what every
comparison writes. -/

namespace Sys2Proof.Machine

/-! ### The comparators -/

theorem boolWord_decide (p : Prop) [Decidable p] : boolWord (decide p) = if p then 1 else 0 := by
  simp [boolWord]

theorem boolWord_eq_zero_or_one (b : Bool) : boolWord b = 0 ∨ boolWord b = 1 := by cases b <;> decide

theorem greaterThan_eq (x y : Nat) : greaterThan x y = if x > y then 1 else 0 := boolWord_decide (x > y)

theorem equalTo_eq (x y : Nat) : equalTo x y = if x = y then 1 else 0 := boolWord_decide (x = y)

/-- The opcodes of the comparison family give a truth value's word, whatever the operands (R176). -/
theorem evaluate_eq_boolWord {i : Instr} (h : i.opcode ∈ [Opcode.gtrr, .gtri, .gtir, .eqrr, .eqri, .eqir]) (W : Nat)
    (x : List Nat) : ∃ b, evaluate W x i = boolWord b := by
  cases i with
  | gtrr | gtri | gtir | eqrr | eqri | eqir => exact ⟨_, rfl⟩
  | _ => simp [Instr.opcode] at h

/-! ### The obligations -/

/-- Settles O17: gtrr checks two sources, and its result is the greater-than comparator's on them as the mirror leaves them. -/
theorem gtrrWritesTheComparison : Obligations.GtrrWritesTheComparison := by
  unfold Obligations.GtrrWritesTheComparison
  refine ⟨fun m r => decode_of_code (op := .gtrr), fun s a b c => ?_⟩
  exact exec_of_two_sources (i := .gtrr a b c) rfl fun ha hb =>
    (congrArg₂ greaterThan (readReg_mirror ha) (readReg_mirror hb)).trans (greaterThan_eq _ _)

/-- Settles O18: gtri checks source A alone, and its result is the greater-than comparator's on that register and B. -/
theorem gtriWritesTheComparison : Obligations.GtriWritesTheComparison := by
  unfold Obligations.GtriWritesTheComparison
  refine ⟨fun m r => decode_of_code (op := .gtri), fun s a b c => ?_⟩
  exact exec_of_one_source (i := .gtri a b c) rfl fun ha =>
    (congrArg (greaterThan · b) (readReg_mirror ha)).trans (greaterThan_eq _ _)

/-- Settles O19: gtir checks source B alone, and its result is the greater-than comparator's on A and that register. -/
theorem gtirWritesTheComparison : Obligations.GtirWritesTheComparison := by
  unfold Obligations.GtirWritesTheComparison
  refine ⟨fun m r => decode_of_code (op := .gtir), fun s a b c => ?_⟩
  exact exec_of_one_source (i := .gtir a b c) rfl fun hb =>
    (congrArg (greaterThan a) (readReg_mirror hb)).trans (greaterThan_eq _ _)

/-- Settles O20: eqrr checks two sources, and its result is the equal-to comparator's on them as the mirror leaves them. -/
theorem eqrrWritesTheComparison : Obligations.EqrrWritesTheComparison := by
  unfold Obligations.EqrrWritesTheComparison
  refine ⟨fun m r => decode_of_code (op := .eqrr), fun s a b c => ?_⟩
  exact exec_of_two_sources (i := .eqrr a b c) rfl fun ha hb =>
    (congrArg₂ equalTo (readReg_mirror ha) (readReg_mirror hb)).trans (equalTo_eq _ _)

/-- Settles O21: eqri checks source A alone, and its result is the equal-to comparator's on that register and B. -/
theorem eqriWritesTheComparison : Obligations.EqriWritesTheComparison := by
  unfold Obligations.EqriWritesTheComparison
  refine ⟨fun m r => decode_of_code (op := .eqri), fun s a b c => ?_⟩
  exact exec_of_one_source (i := .eqri a b c) rfl fun ha =>
    (congrArg (equalTo · b) (readReg_mirror ha)).trans (equalTo_eq _ _)

/-- Settles O22: eqir checks source B alone, and its result is the equal-to comparator's on A and that register. -/
theorem eqirWritesTheComparison : Obligations.EqirWritesTheComparison := by
  unfold Obligations.EqirWritesTheComparison
  refine ⟨fun m r => decode_of_code (op := .eqir), fun s a b c => ?_⟩
  exact exec_of_one_source (i := .eqir a b c) rfl fun hb =>
    (congrArg (equalTo a) (readReg_mirror hb)).trans (equalTo_eq _ _)

/-- Settles O23: a comparison with its checked fields in range completes, and what it writes to x[C] is a truth value's word. -/
theorem comparisonsWriteZeroOrOne : Obligations.ComparisonsWriteZeroOrOne := by
  unfold Obligations.ComparisonsWriteZeroOrOne
  intro i s hi hin
  obtain ⟨b, hb⟩ := evaluate_eq_boolWord hi s.width s.mirror.regs
  obtain ⟨t, e, hd⟩ := exec_completes_with hin hb
  exact ⟨t, e, hd.destination ▸ boolWord_eq_zero_or_one b, hd.status, hd.finfo⟩

end Sys2Proof.Machine
end

section
/-! PROOFS. The exception, the run status and the watch-halt (R190 to R217): the range check over R192's table, the one outcome of a step,
what each operation makes of the run status, and the host's service of a suspension. -/

namespace Sys2Proof.Machine

variable {s t : State} {i : Instr}

/-! ### The range check and the touch predicate -/

/-- The range check is R192's: the first checked field that is not below NREG (R114). -/
theorem find_checkedFields (i : Instr) (n : Nat) :
    (checkedFields i).find? (fun q => decide (n ≤ q.2)) = (instrForm i).firstOutOfRange n := by
  rw [checkedFields_eq, Form.firstOutOfRange]

theorem checkedFields_inRange {n : Nat} (h : (instrForm i).firstOutOfRange n = none) : ∀ q ∈ checkedFields i, q.2 < n :=
  checkedFields_eq i ▸ Form.inRange_of_check h

/-- Settles O25: a failing check raises, and a completed instruction keeps STATUS and FINFO. -/
theorem firstCheckedFieldOutOfRangeFaults : Obligations.FirstCheckedFieldOutOfRangeFaults := by
  unfold Obligations.FirstCheckedFieldOutOfRangeFaults
  refine ⟨fun i s => ?_, rfl, rfl, rfl, rfl⟩
  rw [find_checkedFields]
  split
  · next h => exact exec_of_outOfRange h
  · next h =>
    obtain ⟨t, e, hd⟩ := exec_completes (checkedFields_inRange h)
    exact ⟨t, e, hd.status, hd.finfo⟩

/-- Settles O47: the register-index fields of an instruction's form are the fields of R192's table. -/
theorem touchesExactlyTheRegisterFields : Obligations.TouchesExactlyTheRegisterFields := by
  unfold Obligations.TouchesExactlyTheRegisterFields
  intro i w
  simp [Form.touches, checkedFields_eq]

/-! ### The outcome of a step -/

/-- Settles O29: the end of the program, then the watch-halt test, then the range check, and completion where none of them stops the
step. -/
theorem oneOutcomeByPriority : Obligations.OneOutcomeByPriority := by
  unfold Obligations.OneOutcomeByPriority
  intro s hrun
  split
  · next hl =>
    have hf : s.program[s.pc]? = some s.program[s.pc] := List.getElem?_eq_getElem hl
    simp only [find_checkedFields, ← watchFires_iff]
    split
    · next hfires => exact step_of_watchFires hrun hf hfires
    · next hfires =>
      rw [step_of_not_watchFires hrun hf (Bool.eq_false_iff.mpr hfires), mirrored_eq]
      split
      · next h => exact exec_of_outOfRange h
      · next h => exact exec_completes (checkedFields_inRange h)
  · next hl => exact step_of_ended hrun (Nat.not_lt.mp hl)

/-! ### States in which no step is enabled -/

theorem step_of_fault (h : s.status.code = .fault) : step s = .fault .faulted := by
  simp [step, State.phase, h]

/-- Outside RUNNING no step is enabled (R190). -/
theorem step_of_not_running (h : s.status.code ≠ .running) : ∃ f, step s = .fault f := by
  obtain ⟨-, e⟩ | ⟨-, e⟩ | ⟨-, e⟩ | ⟨hrun, -⟩ | ⟨hrun, -⟩ := phase_cases s
  · exact ⟨.halted, by rw [step, e]⟩
  · exact ⟨.faulted, by rw [step, e]⟩
  · exact ⟨.suspended, by rw [step, e]⟩
  · exact absurd hrun h
  · exact absurd hrun h

theorem hostResume_of_not_suspended (h : s.status.code ≠ .watchHalt) : hostResume s = .refused .notSuspended := by
  simp [hostResume, h]

theorem hostResumeRaising_of_not_suspended (h : s.status.code ≠ .watchHalt) :
    hostResumeRaising s = .refused .notSuspended := by
  rw [hostResumeRaising, hostResume_of_not_suspended h, andThen]

/-- Settles O26: `raise` is a record update to FAULT, in which neither the core nor the host has an operation left. -/
theorem raisingIsFinal : Obligations.RaisingIsFinal := by
  unfold Obligations.RaisingIsFinal
  intro s e field v
  have hcode : (s.raise e field v).status.code ≠ .watchHalt := nofun
  exact ⟨rfl, rfl, rfl, rfl, rfl, step_of_fault rfl, fun _ _ => hostWriteReg_of_not_suspended hcode,
    fun _ => hostSetPc_of_not_suspended hcode, hostResume_of_not_suspended hcode, hostResumeRaising_of_not_suspended hcode⟩

/-- The run status after a step, with the reason of each change (R111, R190, R192, R212). -/
theorem step_edges (h : step s = .next t) :
    s.status.code = .running ∧
    (t.status.code = .running ∨
     (t.status.code = .halted ∧ s.program.length ≤ s.pc) ∨
     (∃ r, s.program[s.pc]? = some r ∧
       ((t.status.code = .watchHalt ∧ ∃ w ∈ s.watched, ∃ p ∈ checkedFields (decode s.map r), p.2 = w) ∨
        (t.status.code = .fault ∧ ∃ p ∈ checkedFields (decode s.map r), s.nreg ≤ p.2)))) := by
  obtain ⟨hrun, ⟨hl, rfl⟩ | ⟨r, hf, ⟨hfires, rfl⟩ | ⟨-, hex⟩⟩⟩ := step_cases h
  · exact ⟨hrun, .inr (.inl ⟨rfl, hl⟩)⟩
  · exact ⟨hrun, .inr (.inr ⟨r, hf, .inl ⟨rfl, (watchFires_iff s _).mp hfires⟩⟩)⟩
  · refine ⟨hrun, ?_⟩
    obtain ⟨field, v, hout, e⟩ | ⟨-, t', e, hd⟩ := exec_cases (decode s.map r) s
    · obtain rfl : t = faulted s field v := by simpa [hex] using e
      obtain ⟨hmem, hv⟩ := Form.mem_of_firstOutOfRange hout
      exact .inr (.inr ⟨r, hf, .inr ⟨rfl, (field, v), checkedFields_eq _ ▸ hmem, hv⟩⟩)
    · obtain rfl : t = t' := by simpa [hex] using e
      exact .inl (hd.status ▸ hrun)

/-- Settles O32: the edges of a step, and of the host's operations by the status they are granted in. -/
theorem statusMovesAlongItsEdges : Obligations.StatusMovesAlongItsEdges := by
  unfold Obligations.StatusMovesAlongItsEdges
  refine ⟨fun a f s h => ?_, fun s => step_enabled, fun s t => step_edges, fun s => step_of_not_running, fun s hs => ?_,
    fun s hs => ?_⟩
  · obtain ⟨-, _, -, -, rfl⟩ := launch_next_iff.mp h
    rfl
  · exact ⟨_, hostResume_next_iff.mpr ⟨hs, rfl⟩, rfl⟩
  · have hcode : s.status.code ≠ .watchHalt := by obtain hs | hs := hs <;> simp [hs]
    exact ⟨hostResume_of_not_suspended hcode, hostResumeRaising_of_not_suspended hcode,
      fun _ => hostSetPc_of_not_suspended hcode, fun _ _ => hostWriteReg_of_not_suspended hcode⟩

/-! ### The resume -/

/-- A fault waits only behind the instruction at the pc (R197). -/
theorem fetched_of_waitingFault {field : FieldName} {v : Nat} (h : s.waitingFault = some (field, v)) :
    ∃ r, s.program[s.pc]? = some r ∧ (instrForm (decode s.map r)).firstOutOfRange s.nreg = some (field, v) := by
  simp only [State.waitingFault] at h
  split at h
  · exact Option.bind_eq_some_iff.mp h
  · cases h

/-- With the pc and the registers as the suspension noted them, what waits is the range check's finding (R197). -/
theorem waitingFault_of_unchanged {r : RawInstr} (hf : s.program[s.pc]? = some r) (h : s.suspension = some ⟨s.pc, s.regs⟩) :
    s.waitingFault = (instrForm (decode s.map r)).firstOutOfRange s.nreg := by
  rw [State.waitingFault, if_pos h, hf, Option.bind_some]

theorem waitingFault_of_changed (h : s.suspension ≠ some ⟨s.pc, s.regs⟩) : s.waitingFault = none := if_neg h

/-- At an instruction that touches the watched register a resume and a step lead back to the suspended state, with the suspension noted
again (R212, R215). -/
theorem resume_step_suspends {r : RawInstr} (hs : s.status.code = .watchHalt) (hf : s.program[s.pc]? = some r)
    (h : s.watchFires (decode s.map r) = true) :
    andThen (hostResume s) step = .next { s with suspension := some ⟨s.pc, s.regs⟩ } := by
  have hstep := step_of_watchFires (s := { s with status := { s.status with code := .running } }) rfl hf h
  refine andThen_next_iff.mpr ⟨_, hostResume_next_iff.mpr ⟨hs, rfl⟩, hstep.trans ?_⟩
  rw [State.suspend, ← hs]

/-- Settles O50: the registers are not part of the watch-halt test, and a fault waits where they and the pc are as noted. -/
theorem resumeWithoutMovingThePcSuspendsAgain : Obligations.ResumeWithoutMovingThePcSuspendsAgain := by
  unfold Obligations.ResumeWithoutMovingThePcSuspendsAgain
  refine fun s hs => ⟨hostResume_next_iff.mpr ⟨hs, rfl⟩, fun r x hf htouch => ?_⟩
  have hagain := resume_step_suspends (s := { s with regs := x }) hs hf ((watchFires_iff _ _).mpr htouch)
  refine ⟨andThen_next_iff.mp hagain, fun field v hnote hout => ?_, fun hquiet => ?_⟩
  · have hwait := waitingFault_of_unchanged (s := { s with regs := x }) hf hnote
    rw [find_checkedFields] at hout
    exact hostResumeRaising_raises hs (hwait.trans hout)
  · have hnone : State.waitingFault { s with regs := x } = none := by
      by_cases hnote : s.suspension = some ⟨s.pc, x⟩
      · have hin := hquiet.resolve_left (not_not.mpr hnote)
        rw [checkedFields_eq] at hin
        exact (waitingFault_of_unchanged (s := { s with regs := x }) hf hnote).trans (Form.check_of_inRange hin)
      · exact waitingFault_of_changed hnote
    exact (hostResumeRaising_steps hnone).trans hagain

/-- Settles O51: a register write, a pc write and a resume, each granted (R216). -/
theorem resumeActionZeroesAndAdvances : Obligations.ResumeActionZeroesAndAdvances := by
  unfold Obligations.ResumeActionZeroesAndAdvances
  intro s miss adv hs hmiss
  have hwrite := hostWriteReg_next_iff.mpr ⟨hs, hmiss, Nat.two_pow_pos s.width, rfl⟩
  have hpc := (hostSetPc_next_iff (s := s.setReg miss 0) (n := s.pc + adv)).mpr ⟨hs, rfl⟩
  have hresume := (hostResume_next_iff (s := (s.setReg miss 0).setPc (s.pc + adv))).mpr ⟨hs, rfl⟩
  exact ⟨_, resumeAction_next_iff.mpr ⟨_, ⟨_, hwrite, hpc⟩, hresume⟩, State.reg_setReg_same hmiss 0,
    fun j hj => State.reg_setReg_other hj 0, State.setReg_nreg s miss 0, rfl, rfl, rfl⟩

/-! ### Legal states under the host's service -/

/-- In WATCH_HALT a legal STATUS is one without a cause (R43). -/
theorem State.statusLegal_iff_of_suspended (h : s.status.code = .watchHalt) : s.StatusLegal ↔ s.status.cause = .none :=
  State.statusLegal_iff_of_safe (by simp [State.Safe, h])

theorem State.Legal.cause_of_suspended (h : s.Legal) (hs : s.status.code = .watchHalt) : s.status.cause = .none := by
  obtain ⟨-, -, -, hstatus⟩ := h
  exact (State.statusLegal_iff_of_suspended hs).mp hstatus

/-- A word the host writes keeps the file of words (R30, R214). -/
theorem hostWriteReg_legal {k v : Nat} (hs : s.Legal) (h : hostWriteReg k v s = .next t) : t.Legal := by
  obtain ⟨hcode, -, hv, rfl⟩ := hostWriteReg_next_iff.mp h
  have hstatus : (s.setReg k v).StatusLegal :=
    (State.statusLegal_iff_of_suspended (s := s.setReg k v) hcode).mpr (hs.cause_of_suspended hcode)
  obtain ⟨hconf, hregs, hprog, -⟩ := hs
  refine ⟨by simpa [State.ConfigurationLegal] using hconf, fun u hu => ?_, hprog, hstatus⟩
  obtain hu | rfl := List.mem_or_eq_of_mem_set hu
  · exact hregs u hu
  · exact hv

/-- Outside FAULT no part of the invariant speaks of the pc (R34, R214). -/
theorem hostSetPc_legal {n : Nat} (hs : s.Legal) (h : hostSetPc n s = .next t) : t.Legal := by
  obtain ⟨hcode, rfl⟩ := hostSetPc_next_iff.mp h
  have hstatus : (s.setPc n).StatusLegal :=
    (State.statusLegal_iff_of_suspended (s := s.setPc n) hcode).mpr (hs.cause_of_suspended hcode)
  obtain ⟨hconf, hregs, hprog, -⟩ := hs
  exact ⟨hconf, hregs, hprog, hstatus⟩

theorem hostResume_legal (hs : s.Legal) (h : hostResume s = .next t) : t.Legal := by
  obtain ⟨hcode, rfl⟩ := hostResume_next_iff.mp h
  have hcause := hs.cause_of_suspended hcode
  obtain ⟨hconf, hregs, hprog, -⟩ := hs
  exact ⟨hconf, hregs, hprog, hcause⟩

/-- The resume of R197's remark raises the fault of the instruction at the pc, or resumes and steps. -/
theorem hostResumeRaising_legal (hs : s.Legal) (h : hostResumeRaising s = .next t) : t.Legal := by
  obtain ⟨field, v, hwait, rfl⟩ | ⟨u, hresume, hstep⟩ := hostResumeRaising_cases h
  · obtain ⟨r, hf, hout⟩ := fetched_of_waitingFault hwait
    exact hs.faulted hf hout
  · exact stepsKeepLegalStates u t (hostResume_legal hs hresume) hstep

/-- The resume action is a register write, a pc write and a resume (R216). -/
theorem resumeAction_legal {k n : Nat} (hs : s.Legal) (h : resumeAction k n s = .next t) : t.Legal := by
  obtain ⟨w, ⟨u, hwrite, hpc⟩, hresume⟩ := resumeAction_next_iff.mp h
  exact hostResume_legal (hostSetPc_legal (hostWriteReg_legal hs hwrite) hpc) hresume

/-- Settles O39: each host operation keeps the invariant, by the lemma about each. -/
theorem hostServiceKeepsLegalStates : Obligations.HostServiceKeepsLegalStates := by
  unfold Obligations.HostServiceKeepsLegalStates
  intro s t hs
  exact ⟨fun _ _ => hostWriteReg_legal hs, fun _ => hostSetPc_legal hs, hostResume_legal hs, hostResumeRaising_legal hs,
    fun _ _ => resumeAction_legal hs⟩

/-! ### The cycle protocol -/

/-- Values that are distinct and new are seen one by one, and the last of them is the last newly seen one (R217). -/
theorem cycleAnswer_append {l seen : List Nat} (last : Option Nat) (rest : List Nat) (hl : l.Nodup) (hnew : ∀ v ∈ l, v ∉ seen) :
    cycleAnswer seen last (l ++ rest) = cycleAnswer (l.reverse ++ seen) (l.getLast?.or last) rest := by
  induction l generalizing seen last with
  | nil => rfl
  | cons v l ih =>
    obtain ⟨hv, hl⟩ := List.nodup_cons.mp hl
    obtain ⟨hvnew, hnew⟩ := List.forall_mem_cons.mp hnew
    have hnew' : ∀ u ∈ l, u ∉ v :: seen := fun u hu =>
      List.not_mem_cons_of_ne_of_not_mem (ne_of_mem_of_not_mem hu hv) (hnew u hu)
    rw [List.cons_append, cycleAnswer, if_neg hvnew, ih (some v) hl hnew']
    simp [List.getLast?_cons]

/-- Settles O59: the distinct values are seen first, and then the next value repeats or the list ends; the spec's list is computed. -/
theorem cycleAnswerIsTheLastNewValue : Obligations.CycleAnswerIsTheLastNewValue := by
  unfold Obligations.CycleAnswerIsTheLastNewValue
  refine ⟨fun l rest v hl hv => ?_, fun l hl => ?_, by decide⟩
  · rw [cycleAnswer_append none _ hl (by simp), cycleAnswer, if_pos (by simpa using hv), Option.or_none]
  · have hall := cycleAnswer_append none [] hl (seen := []) (by simp)
    rwa [List.append_nil] at hall

end Sys2Proof.Machine
end

section
/-! PROOFS. The launch: which arguments it accepts (R89, R94, R232), and the start state it makes of them (R231). -/

namespace Sys2Proof

variable {W : Nat} {m : Mapping} {t : Tuple} {r : RawInstr}

/-! ### The checks of a tuple and of MAP -/

/-- A tuple that loads has an id in [0,16) and three W-bit fields (R94, R232). -/
theorem Tuple.inRange_of_load (h : t.load W = .ok r) : t.id < 16 ∧ t.a < 2 ^ W ∧ t.b < 2 ^ W ∧ t.c < 2 ^ W := by
  obtain ⟨hid, -, -, -, hfields⟩ := Machine.load_ok_iff.mp h
  exact ⟨hid ▸ r.id.isLt, hfields⟩

theorem Tuple.exists_load_iff : (∃ r, t.load W = .ok r) ↔ t.id < 16 ∧ t.a < 2 ^ W ∧ t.b < 2 ^ W ∧ t.c < 2 ^ W :=
  ⟨fun ⟨_, h⟩ => Tuple.inRange_of_load h,
    fun ⟨hid, hfields⟩ => ⟨⟨⟨t.id, hid⟩, t.a, t.b, t.c⟩, Machine.load_ok_iff.mpr ⟨rfl, rfl, rfl, rfl, hfields⟩⟩⟩

/-- The slot of a tuple that loads is well formed (R80). -/
theorem Tuple.wellFormed_of_load (h : t.load W = .ok r) : r.wellFormed W = true := by
  obtain ⟨-, ha, hb, hc, hfields⟩ := Machine.load_ok_iff.mp h
  rw [ha, hb, hc] at hfields
  exact fieldsFit_iff.mpr hfields

/-- The model's check of MAP is bijectivity of the map from ids to opcodes (R89). -/
theorem Mapping.isBijection_iff_bijective : m.isBijection = true ↔ Function.Bijective m.opcode := by
  obtain ⟨hiff, -⟩ := Machine.bijectiveMappingDenotesEachOpcodeOnce
  exact (hiff m).trans (Function.bijective_iff_existsUnique m.opcode).symm

end Sys2Proof

namespace Sys2Proof.Machine

variable {W k n : Nat} {ts : List Tuple} {rs : List RawInstr} {a : LaunchArgs} {f : Finfo} {s : State}

/-! ### The loader -/

/-- A program loads exactly when each of its tuples does (R232). -/
theorem exists_loadProgram_iff : (∃ rs, loadProgram W k ts = .ok rs) ↔ ∀ t ∈ ts, ∃ r, t.load W = .ok r := by
  simp only [loadProgram_ok_iff]
  induction ts with
  | nil => simp
  | cons t ts ih =>
    rw [List.forall_mem_cons, ← ih]
    constructor
    · rintro ⟨_, hload⟩
      obtain ⟨r, rs, hr, hrs, -⟩ := List.forall₂_cons_left_iff.mp hload
      exact ⟨⟨r, hr⟩, rs, hrs⟩
    · rintro ⟨⟨r, hr⟩, rs, hrs⟩
      exact ⟨r :: rs, hrs.cons hr⟩

theorem loadProgram_length (h : loadProgram W k ts = .ok rs) : ts.length = rs.length := (loadProgram_ok_iff.mp h).length_eq

/-- Every slot of a loaded program is well formed (R80). -/
theorem loadProgram_wellFormed (h : loadProgram W k ts = .ok rs) : ∀ r ∈ rs, r.wellFormed W = true := by
  replace h := loadProgram_ok_iff.mp h
  induction h with
  | nil => simp
  | cons hload _ ih => exact List.forall_mem_cons.mpr ⟨Tuple.wellFormed_of_load hload, ih⟩

/-- A loaded program holds the tuples slot for slot (R231). -/
theorem loadProgram_slots (h : loadProgram W k ts = .ok rs) :
    List.Forall₂ (fun (t : Tuple) (r : RawInstr) => t.id = r.id ∧ t.a = r.a ∧ t.b = r.b ∧ t.c = r.c) ts rs := by
  refine (loadProgram_ok_iff.mp h).imp fun t r hload => ?_
  obtain ⟨hid, ha, hb, hc, -⟩ := load_ok_iff.mp hload
  exact ⟨hid, ha, hb, hc⟩

/-! ### Acceptance -/

theorem exists_launch_iff : (∃ s, launch a f = .next s) ↔
    a.refusal? = none ∧ (∀ t ∈ a.program, ∃ r, t.load a.width = .ok r) ∧ a.program.length ≤ 2 ^ a.width := by
  simp only [launch_next_iff]
  constructor
  · rintro ⟨_, hchecks, rs, hload, hlen, -⟩
    exact ⟨hchecks, exists_loadProgram_iff.mp ⟨rs, hload⟩, loadProgram_length hload ▸ hlen⟩
  · rintro ⟨hchecks, hloads, hlen⟩
    obtain ⟨rs, hload⟩ := exists_loadProgram_iff.mpr hloads
    exact ⟨_, hchecks, rs, hload, loadProgram_length hload ▸ hlen, rfl⟩

/-- A launch answers no fault: it makes a machine or is refused (R232). -/
theorem launch_next_or_refused (a : LaunchArgs) (f : Finfo) : (∃ s, launch a f = .next s) ∨ ∃ r, launch a f = .refused r := by
  cases hchecks : a.refusal? with
  | some r => exact .inr ⟨r, launch_of_refusal hchecks⟩
  | none =>
    cases hload : loadProgram a.width 0 a.program with
    | error e => exact .inr ⟨_, launch_of_loadProgram_error hchecks hload⟩
    | ok rs =>
      by_cases hlen : rs.length ≤ 2 ^ a.width
      · exact .inl ⟨_, launch_next_iff.mpr ⟨hchecks, rs, hload, hlen, rfl⟩⟩
      · exact .inr ⟨.programTooLong rs.length, by simp [launch, hchecks, hload, Nat.not_le.mp hlen]⟩

/-- Settles O41: the checks outside the program are `refusal?`, those of the program are its loading and its length. -/
theorem launchIsRefusedExactlyWhenACheckFails : Obligations.LaunchIsRefusedExactlyWhenACheckFails := by
  unfold Obligations.LaunchIsRefusedExactlyWhenACheckFails
  intro a f hwidth
  refine ⟨?_, fun h => (launch_next_or_refused a f).resolve_left (not_exists.mpr h)⟩
  have hwidth0 : a.width ≠ 0 := Nat.one_le_iff_ne_zero.mp hwidth
  have hcounts : a.nreg ∈ Config.registerCounts ↔ a.nreg = 4 ∨ a.nreg = 6 := by simp [Config.registerCounts]
  rw [exists_launch_iff, refusal_none_iff, hcounts, Mapping.isBijection_iff_bijective]
  simp only [Tuple.exists_load_iff, forall_and, hwidth0, ne_eq, not_false_eq_true, true_and, and_assoc]

/-! ### The start state -/

/-- Settles O40: what a launch makes is the start state of its arguments and of the loaded program. -/
theorem launchSetsTheStartState : Obligations.LaunchSetsTheStartState := by
  unfold Obligations.LaunchSetsTheStartState
  intro a f s h
  obtain ⟨hchecks, rs, hload, -, rfl⟩ := launch_next_iff.mp h
  obtain ⟨-, -, hlen, -⟩ := refusal_none_iff.mp hchecks
  exact ⟨rfl, hlen, rfl, rfl, rfl, rfl, rfl, rfl, loadProgram_slots hload⟩

/-- The bound register is below `n` when IPB.IDX is, or when the binding is off (R40). -/
theorem State.binding_lt_iff : (∀ p ∈ s.binding, p < n) ↔ (s.ipb.en = true → s.ipb.idx < n) := by
  by_cases hen : s.ipb.en = true <;> simp [State.binding, hen]

/-- The watched register is below `n` when WCFG.IDX is, or when the policy is off (R42). -/
theorem State.watched_lt_iff : (∀ w ∈ s.watched, w < n) ↔ (s.wcfg.en = true → s.wcfg.idx < n) := by
  by_cases hen : s.wcfg.en = true <;> simp [State.watched, hen]

/-- The checks outside the program give the start state a legal configuration (R232). -/
theorem start_configurationLegal (h : a.refusal? = none) : (a.start rs f).ConfigurationLegal := by
  obtain ⟨hwidth, hcount, hlen, -, hipb, hwcfg, hmap⟩ := refusal_none_iff.mp h
  have hnreg : (a.start rs f).nreg = a.nreg := hlen
  rw [State.ConfigurationLegal, State.binding_lt_iff, State.watched_lt_iff, hnreg]
  exact ⟨Nat.one_le_iff_ne_zero.mpr hwidth, hcount, hipb, hwcfg, hmap⟩

/-- Settles O38: the invariant's parts are the checks of R232, and STATUS is RUNNING, where FINFO has no part in it. -/
theorem launchMakesLegalStates : Obligations.LaunchMakesLegalStates := by
  unfold Obligations.LaunchMakesLegalStates
  intro a f s h
  obtain ⟨hchecks, rs, hload, hlen, rfl⟩ := launch_next_iff.mp h
  obtain ⟨-, -, -, hregs, -⟩ := refusal_none_iff.mp hchecks
  have hstatus : (a.start rs f).StatusLegal := (State.statusLegal_iff_of_safe (State.safe_of_running rfl)).mpr rfl
  exact ⟨start_configurationLegal hchecks, hregs, ⟨loadProgram_wellFormed hload, hlen⟩, hstatus⟩

end Sys2Proof.Machine
end
